-- ==== Sys2Proof/Word.lean ====
section
/-! DEFINITION. The word types of the block (00_scope.md R10, R11): unsigned bit vectors, bit 0 least significant. -/

namespace Sys2Proof

/-- `Byte` of 00_scope.md R11: a frame byte, an address, a function code, a raw payload parameter. -/
abbrev Byte := BitVec 8

/-- `U16` of R11: the CRC accumulator and result, and each two-field parameter. -/
abbrev U16 := BitVec 16

/-- `Word32` of R11: a register value, a bus datum, a word of a request. -/
abbrev Word32 := BitVec 32

/-- An offset in the block's 4 KiB register window (10_state.md R27). -/
abbrev Offset := BitVec 12

end Sys2Proof
end

