-- ==== Sys2Proof/Config.lean ====
section
/-! DEFINITION. What an implementation or the platform fixes (BASE, MAXB) and the values the spec leaves free. -/

namespace Sys2Proof

/-- The two parameters of a model (00_scope.md R7, R8). They are configuration (10_state.md R23): no step changes them. -/
structure Params where
  /-- BASE: the byte address of the 4 KiB register window, a multiple of 4096. -/
  base : Nat
  /-- MAXB: the largest number of operand words of a request, 6 to 254. -/
  maxb : Nat
  deriving DecidableEq, Repr

/-- The values R7 and R8 admit. -/
abbrev Params.wf (P : Params) : Prop := P.base % 4096 = 0 ∧ 6 ≤ P.maxb ∧ P.maxb ≤ 254

/-- MAXB at the spec's default (R8). BASE is OPEN: the value here is a DESIGN CHOICE (unsafe where a claim names it; log entry 3). -/
def Params.default : Params := { base := 0x40000000, maxb := 254 }

/-- FRAME_MAX = RSP_MAX = MAXB + 2 (00_scope.md R9). -/
def Params.frameMax (P : Params) : Nat := P.maxb + 2

/-- `draw()` of 00_scope.md R13 at the n-th draw of a run: no law constrains it (safe; log entry 2). -/
opaque Config.draw : Nat → Word32

/-- Whether a reset that coincides with an access comes before it (70_reset_and_hazards.md R181 admits both orders):
no law constrains it (safe; log entry 7). -/
opaque Config.resetFirst : Nat → Bool

end Sys2Proof
end

