-- ==== Sys2Proof/Syntax.lean ====
section
/-! DEFINITION. The instructions of the block, one constructor per row of spec/opcode_table.json, and the forms in which they
reach it: a host access or the words of a request. -/

namespace Sys2Proof

/-- The six request operations (30_encoding.md R76). -/
inductive Op where
  | crc
  | frameWrite
  | frameRead
  | frameRaw4
  | frameRaw
  | frameAuto
  deriving DecidableEq, Repr

/-- The four error classes of a request (60_exceptions.md R151). -/
inductive ErrCode where
  /-- E_OPCODE: the header word is illegal. -/
  | opcode
  /-- E_TOOLONG: more than MAXB operand words. -/
  | tooLong
  /-- E_SHAPE: an operand count the operation does not admit. -/
  | shape
  /-- E_RANGE: an operand does not fit its declared width. -/
  | range
  deriving DecidableEq, Repr

/-- The instructions. A request operation carries its operand words w1 .. wN as the host wrote them, all 32 bits of each
(30_encoding.md R70, R72): a form that the operation's checks turn away is a term too, and completes with its error. -/
inductive Instr where
  /-- `crc` (41_checksum.md R104). -/
  | crc (ws : List Word32)
  /-- `frame.write` (42_frame.md R124). -/
  | frameWrite (ws : List Word32)
  /-- `frame.read` (R125). -/
  | frameRead (ws : List Word32)
  /-- `frame.raw4` (R126). -/
  | frameRaw4 (ws : List Word32)
  /-- `frame.raw` (R127). -/
  | frameRaw (ws : List Word32)
  /-- `frame.auto` (R129). -/
  | frameAuto (ws : List Word32)
  /-- `wr REQ, v` (40_register_access.md R90). -/
  | wrReq (v : Word32)
  /-- `wr REQ_LAST, v` (R91). -/
  | wrReqLast (v : Word32)
  /-- `wr ABORT, v` (R92). -/
  | wrAbort (v : Word32)
  /-- A write to a read-only or reserved offset (R93). -/
  | wrReadOnlyOrReserved (off : Offset) (v : Word32)
  /-- `rd STAT` (R94). -/
  | rdStat
  /-- `rd RSP_STATUS` (R95). -/
  | rdRspStatus
  /-- `rd CAPS` (R96). -/
  | rdCaps
  /-- `rd RSP_DATA[i]` (R97): i in 0..255. -/
  | rdRspData (i : BitVec 8)
  /-- A read of a write-only or reserved offset (R98). -/
  | rdWriteOnlyOrReserved (off : Offset)
  deriving DecidableEq, Repr

/-- Direction of a bus access; a write carries its 32-bit value. -/
inductive Transfer where
  | read
  | write (v : Word32)
  deriving DecidableEq, Repr

/-- One bus access of the host (00_scope.md R13: `MemWrite(BASE + off, 4, v)`, `MemRead(BASE + off, 4)`), of any width and
at any address, admitted by 20_memory.md R57 or not. -/
structure BusAccess where
  /-- The physical byte address. -/
  addr : Nat
  /-- The access width in bits. -/
  bits : Nat
  transfer : Transfer
  deriving DecidableEq, Repr

/-- What an instruction is encoded as: a bus access, or the words of a request. -/
inductive Encoded where
  | access (a : BusAccess)
  | request (req : List Word32)
  deriving DecidableEq, Repr

/-- The pseudo-instructions of 30_encoding.md R81. -/
inductive Pseudo where
  | readCoils (a start qty : Word32)
  | readDiscreteInputs (a start qty : Word32)
  | readHoldingRegisters (a start qty : Word32)
  | readInputRegisters (a start qty : Word32)
  | writeSingleCoil (a addr : Word32) (on : Bool)
  | writeSingleRegister (a addr v : Word32)
  | abort
  deriving DecidableEq, Repr

end Sys2Proof
end

