-- ==== Sys2Proof/WellFormed.lean ====
section
/-! DEFINITION. Which terms of Instr are well formed: the operand counts and widths of 30_encoding.md R73 (written from its
table; the checks the block runs are R75's, in Decode.lean) and the offsets of 40_register_access.md R93 and R98. -/

namespace Sys2Proof

/-- Every operand word is a byte value (R73: width 8). -/
def allBytes (ws : List Word32) : Bool := ws.all fun w => decide (w.toNat < 256)

/-- The two-field shape: address 8, function code 8, two parameters of 16 (R73). -/
def isU16x2 : List Word32 → Bool
  | [a, f, p0, p1] => decide (a.toNat < 256) && decide (f.toNat < 256) && decide (p0.toNat < 65536) && decide (p1.toNat < 65536)
  | _ => false

/-- The offsets that R93 lists for an ignored write, all of them multiples of 4. -/
def ignoresWrites (off : Offset) : Bool :=
  decide (off.toNat % 4 = 0) &&
    (decide (off.toNat = 0x008) || decide (off.toNat = 0x00C) || decide (off.toNat = 0x010) ||
      (decide (0x018 ≤ off.toNat) && decide (off.toNat ≤ 0xFFC)))

/-- The offsets that R98 lists for a read of zero. -/
def readsZero (off : Offset) : Bool :=
  decide (off.toNat % 4 = 0) &&
    (decide (off.toNat = 0x000) || decide (off.toNat = 0x004) || decide (off.toNat = 0x014) ||
      (decide (0x018 ≤ off.toNat) && decide (off.toNat ≤ 0x3FC)) || (decide (0x800 ≤ off.toNat) && decide (off.toNat ≤ 0xFFC)))

/-- Well-formed for a block with the given MAXB: a request the block completes without an error, or an access whose offset is
one of its kind. -/
def Instr.wf (maxb : Nat) : Instr → Bool
  | .crc ws => decide (ws.length ≤ maxb) && allBytes ws
  | .frameWrite ws => decide (ws.length ≤ maxb) && isU16x2 ws
  | .frameRead ws => decide (ws.length ≤ maxb) && isU16x2 ws
  | .frameRaw4 ws => decide (ws.length ≤ maxb) && decide (ws.length = 6) && allBytes ws
  | .frameRaw ws => decide (ws.length ≤ maxb) && decide (2 ≤ ws.length) && allBytes ws
  | .frameAuto ws =>
    decide (ws.length ≤ maxb) && decide (2 ≤ ws.length) && (if ws.length = 4 then isU16x2 ws else allBytes ws)
  | .wrReq _ => true
  | .wrReqLast _ => true
  | .wrAbort _ => true
  | .wrReadOnlyOrReserved off _ => ignoresWrites off
  | .rdStat => true
  | .rdRspStatus => true
  | .rdCaps => true
  | .rdRspData _ => true
  | .rdWriteOnlyOrReserved off => readsZero off

end Sys2Proof
end

