-- ==== Sys2Proof/Decode.lean ====
section
/-! DEFINITION. Decoding, total on every bus access and every request, rejecting by name; the encoder beside it; the assembler
of 30_encoding.md R79 to R81; and the reading of spec/opcode_table.json's own words. -/

namespace Sys2Proof

/-- Why a bus access is no instruction (20_memory.md R57). -/
inductive AccessReject where
  /-- The access is not 32 bits wide. -/
  | notWord32
  /-- The address is outside `BASE .. BASE + 0xFFF`. -/
  | outsideWindow
  /-- The offset is not a multiple of 4. -/
  | misaligned
  deriving DecidableEq, Repr

/-- Why an access or a request is no instruction. -/
inductive Reject where
  /-- A bus access R57 does not admit. -/
  | access (r : AccessReject)
  /-- RSVD is not zero, or OP is a reserved value (30_encoding.md R71, R76): the block answers E_OPCODE. -/
  | illegalHeader
  /-- No word at all: a request has at least its header (R70). -/
  | emptyRequest
  deriving DecidableEq, Repr

/-! ### Requests -/

/-- The OP value of an operation (30_encoding.md R76). -/
def Op.code : Op → Byte
  | .crc => 0x01
  | .frameWrite => 0x10
  | .frameRead => 0x11
  | .frameRaw4 => 0x12
  | .frameRaw => 0x13
  | .frameAuto => 0x14

/-- The opcode map of R76, read from the OP value; `none` for a reserved one. -/
def decodeOp (b : Byte) : Option Op :=
  if b = 0x01 then some .crc
  else if b = 0x10 then some .frameWrite
  else if b = 0x11 then some .frameRead
  else if b = 0x12 then some .frameRaw4
  else if b = 0x13 then some .frameRaw
  else if b = 0x14 then some .frameAuto
  else none

/-- `OP`, bits [7:0] of a header word (R71). -/
def opField (h : Word32) : Byte := h.extractLsb' 0 8

/-- `RSVD`, bits [31:8] of a header word (R71). -/
def rsvdField (h : Word32) : BitVec 24 := h.extractLsb' 8 24

/-- The operation a header word selects; reserved bits are checked, not ignored (R71, R77). -/
def decodeHeader (h : Word32) : Option Op := if rsvdField h = 0 then decodeOp (opField h) else none

/-- The header word of an operation's request (R79: `zext_32(OP)`). -/
def Op.header (op : Op) : Word32 := op.code.setWidth 32

/-- `shape(op, N)` of 30_encoding.md R75: the declared operand widths, `none` where N is not admitted. -/
def shape (op : Op) (n : Nat) : Option (List Nat) :=
  match op with
  | .crc => some (List.replicate n 8)
  | .frameWrite => if n = 4 then some [8, 8, 16, 16] else none
  | .frameRead => if n = 4 then some [8, 8, 16, 16] else none
  | .frameRaw4 => if n = 6 then some (List.replicate 6 8) else none
  | .frameRaw => if 2 ≤ n then some (List.replicate n 8) else none
  | .frameAuto =>
    if n = 4 then some [8, 8, 16, 16] else if 2 ≤ n then some (List.replicate n 8) else none

/-- An operand word fits its declared width (R72). -/
def fits (w : Word32) (width : Nat) : Bool := decide (w.toNat < 2 ^ width)

/-- `zext_32(w[width-1 : 0])` (R74): no sign extension, no scaling. -/
def argOf (w : Word32) (width : Nat) : Word32 := (w.setWidth width).setWidth 32

/-- `decode(req)` of R75 on the header and the operand words: the checks in their order, the first that fails deciding. -/
def requestDecode (maxb : Nat) (h : Word32) (ws : List Word32) : Except ErrCode (Op × List Word32) :=
  match decodeHeader h with
  | none => .error .opcode
  | some op =>
    if maxb < ws.length then .error .tooLong
    else
      match shape op ws.length with
      | none => .error .shape
      | some widths =>
        if (List.zipWith fits ws widths).all id then .ok (op, List.zipWith argOf ws widths) else .error .range

/-- The instruction of an operation and its operand words. -/
def Instr.ofOp (op : Op) (ws : List Word32) : Instr :=
  match op with
  | .crc => .crc ws
  | .frameWrite => .frameWrite ws
  | .frameRead => .frameRead ws
  | .frameRaw4 => .frameRaw4 ws
  | .frameRaw => .frameRaw ws
  | .frameAuto => .frameAuto ws

/-- The request instruction whose words are `req`. Only the header is examined here: a request whose operands fail a later
check of R75 is that operation's instruction too, and completes with its error code. -/
def decodeRequest : List Word32 → Except Reject Instr
  | [] => .error .emptyRequest
  | h :: ws =>
    match decodeHeader h with
    | none => .error .illegalHeader
    | some op => .ok (Instr.ofOp op ws)

/-! ### Bus accesses -/

/-- The register map of 10_state.md R27 and the dispatch of 40_register_access.md R99, for an aligned offset. -/
def decodeOffset (off : Offset) : Transfer → Instr
  | .write v =>
    if off = 0x000 then .wrReq v
    else if off = 0x004 then .wrReqLast v
    else if off = 0x014 then .wrAbort v
    else .wrReadOnlyOrReserved off v
  | .read =>
    if off = 0x008 then .rdStat
    else if off = 0x00C then .rdRspStatus
    else if off = 0x010 then .rdCaps
    else if off.extractLsb' 10 2 = 1 then .rdRspData (off.extractLsb' 2 8)
    else .rdWriteOnlyOrReserved off

/-- The accesses that 20_memory.md R57 admits. -/
abbrev BusAccess.admitted (P : Params) (a : BusAccess) : Prop :=
  a.bits = 32 ∧ P.base ≤ a.addr ∧ a.addr < P.base + 0x1000 ∧ (a.addr - P.base) % 4 = 0

/-- The access instruction of a bus access; an access R57 does not admit is rejected by name. -/
def decodeAccess (P : Params) (a : BusAccess) : Except AccessReject Instr :=
  if a.bits ≠ 32 then .error .notWord32
  else if a.addr < P.base ∨ P.base + 0x1000 ≤ a.addr then .error .outsideWindow
  else if (a.addr - P.base) % 4 ≠ 0 then .error .misaligned
  else .ok (decodeOffset (BitVec.ofNat 12 (a.addr - P.base)) a.transfer)

/-- The decoder. -/
def decode (P : Params) : Encoded → Except Reject Instr
  | .access a => (decodeAccess P a).mapError Reject.access
  | .request req => decodeRequest req

/-! ### The encoder -/

/-- `MemWrite(BASE + off, 4, v)` (00_scope.md R13). -/
def memWrite (P : Params) (off : Offset) (v : Word32) : BusAccess :=
  { addr := P.base + off.toNat, bits := 32, transfer := .write v }

/-- `MemRead(BASE + off, 4)` (R13). -/
def memRead (P : Params) (off : Offset) : BusAccess :=
  { addr := P.base + off.toNat, bits := 32, transfer := .read }

/-- The offset of `RSP_DATA[i]`: 0x400 + 4·i (10_state.md R33). -/
def rspDataOffset (i : BitVec 8) : Offset := BitVec.ofNat 12 (0x400 + 4 * i.toNat)

/-- The words of a request instruction, or the bus access of an access instruction. -/
def encode (P : Params) : Instr → Encoded
  | .crc ws => .request (Op.crc.header :: ws)
  | .frameWrite ws => .request (Op.frameWrite.header :: ws)
  | .frameRead ws => .request (Op.frameRead.header :: ws)
  | .frameRaw4 ws => .request (Op.frameRaw4.header :: ws)
  | .frameRaw ws => .request (Op.frameRaw.header :: ws)
  | .frameAuto ws => .request (Op.frameAuto.header :: ws)
  | .wrReq v => .access (memWrite P 0x000 v)
  | .wrReqLast v => .access (memWrite P 0x004 v)
  | .wrAbort v => .access (memWrite P 0x014 v)
  | .wrReadOnlyOrReserved off v => .access (memWrite P off v)
  | .rdStat => .access (memRead P 0x008)
  | .rdRspStatus => .access (memRead P 0x00C)
  | .rdCaps => .access (memRead P 0x010)
  | .rdRspData i => .access (memRead P (rspDataOffset i))
  | .rdWriteOnlyOrReserved off => .access (memRead P off)

/-! ### The assembler (30_encoding.md R79 to R81) -/

/-- The writes that issue a request (R70): every word but the last to REQ, the last to REQ_LAST. -/
def issueWords (P : Params) : List Word32 → List BusAccess
  | [] => []
  | w :: ws => if ws.isEmpty then [memWrite P 0x004 w] else memWrite P 0x000 w :: issueWords P ws

/-- The bus accesses a statement of R79 stands for: one for an access statement, the writes of R70 for a request. -/
def issue (P : Params) (i : Instr) : List BusAccess :=
  match encode P i with
  | .access a => [a]
  | .request req => issueWords P req

/-- The expansions of R81. -/
def Pseudo.expand : Pseudo → Instr
  | .readCoils a start qty => .frameRead [a, 0x01, start, qty]
  | .readDiscreteInputs a start qty => .frameRead [a, 0x02, start, qty]
  | .readHoldingRegisters a start qty => .frameRead [a, 0x03, start, qty]
  | .readInputRegisters a start qty => .frameRead [a, 0x04, start, qty]
  | .writeSingleCoil a addr on => .frameWrite [a, 0x05, addr, if on then 0xFF00 else 0x0000]
  | .writeSingleRegister a addr v => .frameWrite [a, 0x06, addr, v]
  | .abort => .wrAbort 0x00000000

/-! ### The words of spec/opcode_table.json -/

/-- The least operand count R73 admits for an operation. -/
def leastOperands : Op → Nat
  | .crc => 0
  | .frameWrite => 4
  | .frameRead => 4
  | .frameRaw4 => 6
  | .frameRaw => 2
  | .frameAuto => 2

/-- The request of a 32-bit table row: the header word, and operand words of zeros, as many as the operation needs
(log entry 9). -/
def tableRequest (w : Nat) : List Word32 :=
  let h := BitVec.ofNat 32 w
  h :: List.replicate ((decodeHeader h).elim 0 leastOperands) 0

/-- The access of a 12-bit table row (two whole bytes): its bits are the offset; the table names the direction in the row's
format, not in its bits, so the offset is taken in the direction of the row that names it: a write of 0 for the three write
ports, a read for every other offset (log entry 9). -/
def tableAccess (P : Params) (w : Nat) : BusAccess :=
  { addr := P.base + w, bits := 32, transfer := if w = 0x000 ∨ w = 0x004 ∨ w = 0x014 then .write 0 else .read }

/-- What a table row's word stands for. -/
def tableEncoded (P : Params) (nbits w : Nat) : Encoded :=
  if nbits ≤ 16 then .access (tableAccess P w) else .request (tableRequest w)

/-- The assembly buffer in which a table word's instruction is one access away: for a request row, the words before the last
(30_encoding.md R70); an access row needs no change. -/
def tableAsm (nbits w : Nat) (asm : List Word32) : List Word32 := if nbits ≤ 16 then asm else (tableRequest w).dropLast

/-- The access that runs a table word's instruction: the row's own, or the REQ_LAST write of the request's last word (R70). -/
def tableNextAccess (P : Params) (nbits w : Nat) : BusAccess :=
  if nbits ≤ 16 then tableAccess P w else memWrite P 0x004 ((tableRequest w).getLastD 0)

/-- The instruction the decoder reads from a table word; it does not depend on BASE. -/
def decodeTableWord (nbits w : Nat) : Option Instr := (decode Params.default (tableEncoded Params.default nbits w)).toOption

end Sys2Proof
end

