-- ==== Sys2Proof/Machine/State.lean ====
section
/-! DEFINITION. The state of the machine as plain data, the state after reset, and the reasons a step can stop. -/

namespace Sys2Proof.Machine

/-- What the outside world does next, as the block sees it. -/
inductive HostEvent where
  /-- A bus access of the host (10_state.md R20). -/
  | access (a : BusAccess)
  /-- The platform's reset, between two accesses (70_reset_and_hazards.md R181). -/
  | reset
  /-- An access that the platform's reset coincides with (R181: either order, never a partly applied access). -/
  | accessDuringReset (a : BusAccess)
  deriving DecidableEq, Repr

/-- The block's record of 10_state.md R23 (`asm`, `rspStatus`, `rspData`), its configuration (`params`), and the model's own
fields for the host side (`pending`, `observed`) and for the free values (`draws`). -/
structure State where
  /-- The assembly buffer: words pushed to REQ since the last completion, abort or reset, oldest first (R23, R24). -/
  asm : List Word32
  /-- The status word of the last completed request, or 0 after reset (R23, R30). -/
  rspStatus : Word32
  /-- The data words of the last completed request (R23, R25). -/
  rspData : List Word32
  /-- BASE and MAXB (00_scope.md R7, R8); no step changes them (log entry 3). -/
  params : Params
  /-- The coming events, oldest first: the host's program (R21; log entry 1). -/
  pending : List HostEvent
  /-- The values the host's reads returned, oldest first (70_reset_and_hazards.md R193; log entry 1). -/
  observed : List Word32
  /-- How many free values have been drawn (log entry 2). -/
  draws : Nat
  deriving DecidableEq, Repr

/-- The machine right after reset (70_reset_and_hazards.md R180), with no access outstanding. -/
def State.reset : State where
  asm := []
  rspStatus := 0x00000000
  rspData := []
  params := Params.default
  pending := []
  observed := []
  draws := 0

/-- The block never stops with a fault: an error is an outcome of a request, recorded in the response (60_exceptions.md R150,
R156), so this type has no constructor (log entry 10). -/
inductive Fault where
  deriving DecidableEq, Repr

/-- Why a step is refused: 20_memory.md R57 defines no effect for the access and tells a model to refuse it. -/
inductive Refusal where
  /-- Raised by exec for an instruction that has no meaning in the model yet; no arm of exec raises it now. Safe. -/
  | notModelled (mnemonic : String)
  /-- Raised by step: the access is not 32 bits wide (R57). Safe: hardware may ignore it, answer anything or signal an error. -/
  | notWord32Access
  /-- Raised by step: the address is outside the block's window (R57, R50). Safe: the block does not decode it. -/
  | outsideWindow
  /-- Raised by step: the offset is not a multiple of 4 (R57). Safe, as for the width. -/
  | misalignedAccess
  deriving DecidableEq, Repr

end Sys2Proof.Machine
end

