-- ==== Sys2Proof/Machine/Operands.lean ====
section
/-! DEFINITION. Operand forms: how a parameter is taken from its operand word, and the byte orders inside a frame. -/

namespace Sys2Proof.Machine

/-- A parameter of width 8: `wk[7:0]`, after the width check (30_encoding.md R74). -/
def byteOf (w : Word32) : Byte := w.setWidth 8

/-- A parameter of width 16: `wk[15:0]`, after the width check (R74). -/
def halfOf (w : Word32) : U16 := w.setWidth 16

/-- `args[k]` (00_scope.md R12); the operations index only operands that `shape` has counted. -/
def arg (args : List Word32) (k : Nat) : Word32 := args.getD k 0

/-- `be16(v)`: most significant byte first (R12, 20_memory.md R52). -/
def be16 (v : U16) : List Byte := [v.extractLsb' 8 8, v.extractLsb' 0 8]

/-- `le16(v)`: least significant byte first (R12, 20_memory.md R53). -/
def le16 (v : U16) : List Byte := [v.extractLsb' 0 8, v.extractLsb' 8 8]

/-- The response words of a frame: `rsp_data[i] = zext_32(frame[i])` (10_state.md R33). -/
def frameWords (fr : List Byte) : List Word32 := fr.map fun b => b.setWidth 32

end Sys2Proof.Machine
end

