-- ==== Sys2Proof/Machine/Flags.lean ====
section
/-! DEFINITION. The status registers: STAT and its flag PEND, computed from `asm` (10_state.md R29), and RSP_STATUS with its
flag ECODE (R30, R36). -/

namespace Sys2Proof.Machine

/-- `PEND`: 1 if `len(asm) > 0`, else 0 (R29). -/
def pend (asm : List Word32) : BitVec 1 := if 0 < asm.length then 1 else 0

/-- `ACNT`: `min(len(asm), 0xFFFF)` (R29). -/
def acnt (asm : List Word32) : U16 := BitVec.ofNat 16 (min asm.length 0xFFFF)

/-- `STAT`: ACNT[31:16], reserved [15:1] = 0, PEND[0] (R29). -/
def statWord (asm : List Word32) : Word32 := acnt asm ++ (0 : BitVec 15) ++ pend asm

/-- `CAPS`: reserved [31:8] = 0, MAXB[7:0] (R31). -/
def capsWord (P : Params) : Word32 := BitVec.ofNat 32 P.maxb

/-- The ECODE value of an error class (60_exceptions.md R151). -/
def errorCode : ErrCode → BitVec 4
  | .opcode => 0x1
  | .tooLong => 0x2
  | .shape => 0x3
  | .range => 0x4

/-- A status word: LEN[31:16], OPECHO[15:8], reserved [7:4] = 0, ECODE[3:0] (10_state.md R30). -/
def packStatus (len : Nat) (opecho : Byte) (ecode : BitVec 4) : Word32 :=
  BitVec.ofNat 16 len ++ opecho ++ (0 : BitVec 4) ++ ecode

/-- `RSP_STATUS.ECODE` (R30). -/
def ecodeField (status : Word32) : BitVec 4 := status.extractLsb' 0 4

/-- `RSP_STATUS[7:4]`, reserved (R30). -/
def reservedField (status : Word32) : BitVec 4 := status.extractLsb' 4 4

/-- `RSP_STATUS.OPECHO` (R30). -/
def opechoField (status : Word32) : Byte := status.extractLsb' 8 8

/-- `RSP_STATUS.LEN` (R30). -/
def lenField (status : Word32) : U16 := status.extractLsb' 16 16

end Sys2Proof.Machine
end

