-- ==== Sys2Proof/Machine/Ops.lean ====
section
/-! DEFINITION. The named operations over the block's state: assembling a request, completing one, the error response (the
one way an exception of this block is taken), reading, drawing a free value, reset, and taking the next event. -/

namespace Sys2Proof.Machine

/-- `asm <- asm ++ [v]` (40_register_access.md R90). -/
def State.pushWord (s : State) (v : Word32) : State := { s with asm := s.asm ++ [v] }

/-- `asm <- []` (R92). -/
def State.discardRequest (s : State) : State := { s with asm := [] }

/-- The response of a request that completed without an error, with `asm` emptied (R91). -/
def State.complete (s : State) (opecho : Byte) (data : List Word32) : State :=
  { s with asm := [], rspStatus := packStatus data.length opecho 0, rspData := data }

/-- `raise E_X()`: the error response of 60_exceptions.md R155, with `asm` emptied by R91. Nothing else changes (R156), and
there is no return (R157). -/
def State.raiseError (s : State) (opecho : Byte) (e : ErrCode) : State :=
  { s with asm := [], rspStatus := packStatus 0 opecho (errorCode e), rspData := [] }

/-- A read returns `v` to the host; no read has a side effect on the block (20_memory.md R58). -/
def State.returnRead (s : State) (v : Word32) : State := { s with observed := s.observed ++ [v] }

/-- A read returns `draw()` (00_scope.md R13): a free value, another one at every draw. -/
def State.returnDraw (s : State) : State :=
  { s with observed := s.observed ++ [Config.draw s.draws], draws := s.draws + 1 }

/-- `rsp_data[i]` where `i < RSP_STATUS.LEN`; `none` where the read is `draw()` (40_register_access.md R97). A state whose
`rspData` is shorter than its LEN is no state of the block (10_state.md R25); there too the word is `none` (log entry 11). -/
def State.rspWord (s : State) (i : Nat) : Option Word32 :=
  if i < (lenField s.rspStatus).toNat then s.rspData[i]? else none

/-- The platform's reset: the block's record takes its values of 70_reset_and_hazards.md R180. The configuration, the host's
remaining program, what it has read and the draw counter are not the block's state and stay (log entry 12). -/
def State.resetBlock (s : State) : State := { s with asm := [], rspStatus := 0x00000000, rspData := [] }

/-- The next event, and the state in which it takes effect (host program order: 20_memory.md R56). -/
def State.fetch (s : State) : Option (HostEvent × State) :=
  match s.pending with
  | [] => none
  | e :: rest => some (e, { s with pending := rest })

/-- The order of a reset that coincides with an access is drawn (R181, log entry 7): whether the reset comes first, and the
state with that draw counted. -/
def State.drawResetOrder (s : State) : Bool × State := (Config.resetFirst s.draws, { s with draws := s.draws + 1 })

/-- A reset after an access: it takes effect where the access had its effect; a refused access stays refused. -/
def thenReset : Host.Outcome State Fault Refusal → Host.Outcome State Fault Refusal
  | .next t => .next t.resetBlock
  | .fault r => .fault r
  | .refused r => .refused r

/-- The refusal of an access that 20_memory.md R57 does not admit. -/
def refusalOf : AccessReject → Refusal
  | .notWord32 => .notWord32Access
  | .outsideWindow => .outsideWindow
  | .misaligned => .misalignedAccess

/-- The events of a host that performs the accesses in this order. -/
def accessEvents (accs : List BusAccess) : List HostEvent := accs.map .access

end Sys2Proof.Machine
end

