-- ==== Sys2Proof/Machine/Checksum.lean ====
section
/-! DEFINITION. The Checksum Engine (41_checksum.md) and the `crc` request operation. -/

namespace Sys2Proof.Machine

/-- The seed of every computation (R100). -/
def crcSeed : U16 := 0xFFFF

/-- The reflected polynomial (R101). -/
def crcPoly : U16 := 0xA001

/-- `crc_step1(acc)`: one bit iteration (R101). -/
def crcStep1 (acc : U16) : U16 := if acc.getLsbD 0 then (acc >>> 1) ^^^ crcPoly else acc >>> 1

/-- `crc_step1` applied `n` times. -/
def crcSteps : Nat → U16 → U16
  | 0, a => a
  | n + 1, a => crcSteps n (crcStep1 a)

/-- `crc_byte(acc, b)`: the byte XORed into the low 8 bits, then exactly 8 bit iterations (R102). -/
def crcByte (acc : U16) (b : Byte) : U16 := crcSteps 8 (acc ^^^ b.setWidth 16)

/-- `compute_crc(bs)`: the bytes in index order from the seed, no final XOR (R103). -/
def computeCrc (bs : List Byte) : U16 := bs.foldl crcByte crcSeed

/-- `crc_op(args)`: the CRC of the operand bytes, delivered as the 16-bit number itself (R104). -/
def crcOp (args : List Word32) : List Word32 := [(computeCrc (args.map byteOf)).setWidth 32]

end Sys2Proof.Machine
end

