-- ==== Sys2Proof/Machine/Frame.lean ====
section
/-! DEFINITION. The Frame Builder (42_frame.md): the layouts, the CRC append, and the five frame operations. -/

namespace Sys2Proof.Machine

/-- `seal(hp)`: the CRC of exactly `hp`, appended least significant byte first (R122). -/
def sealFrame (hp : List Byte) : List Byte := hp ++ le16 (computeCrc hp)

/-- `layout_u16x2(a, f, p0, p1)` (R123). -/
def layoutU16x2 (a f : Byte) (p0 p1 : U16) : List Byte := [a, f] ++ be16 p0 ++ be16 p1

/-- `layout_bytes(a, f, bs)` (R123). -/
def layoutBytes (a f : Byte) (bs : List Byte) : List Byte := [a, f] ++ bs

/-- The address operand of a frame operation. -/
def addressArg (args : List Word32) : Byte := byteOf (arg args 0)

/-- The function code operand of a frame operation. -/
def functionArg (args : List Word32) : Byte := byteOf (arg args 1)

/-- `frame_write_op` (R124): write address and value, big-endian. -/
def frameWriteOp (args : List Word32) : List Word32 :=
  frameWords (sealFrame (layoutU16x2 (addressArg args) (functionArg args) (halfOf (arg args 2)) (halfOf (arg args 3))))

/-- `frame_read_op` (R125): start address and quantity, the layout of `frame.write`. -/
def frameReadOp (args : List Word32) : List Word32 :=
  frameWords (sealFrame (layoutU16x2 (addressArg args) (functionArg args) (halfOf (arg args 2)) (halfOf (arg args 3))))

/-- `frame_raw4_op` (R126): four bytes verbatim. -/
def frameRaw4Op (args : List Word32) : List Word32 :=
  frameWords (sealFrame (layoutBytes (addressArg args) (functionArg args)
    [byteOf (arg args 2), byteOf (arg args 3), byteOf (arg args 4), byteOf (arg args 5)]))

/-- `frame_raw_op` (R127): any number of bytes in the order given. -/
def frameRawOp (args : List Word32) : List Word32 :=
  frameWords (sealFrame (layoutBytes (addressArg args) (functionArg args) ((args.drop 2).map byteOf)))

/-- `frame_auto_op` (R129): the source's dispatch on the number of parameters. The n = 4 and the "other" branch compute the
same function and are kept apart, as R129 keeps them. -/
def frameAutoOp (args : List Word32) : List Word32 :=
  let vs := args.drop 2
  if vs.length = 2 then
    frameWords (sealFrame (layoutU16x2 (addressArg args) (functionArg args) (halfOf (arg vs 0)) (halfOf (arg vs 1))))
  else if vs.length = 4 then
    frameWords (sealFrame (layoutBytes (addressArg args) (functionArg args) (vs.map byteOf)))
  else frameWords (sealFrame (layoutBytes (addressArg args) (functionArg args) (vs.map byteOf)))

end Sys2Proof.Machine
end

