-- ==== Sys2Proof/Machine/Request.lean ====
section
/-! DEFINITION. Executing a request (40_register_access.md R91), and the meanings of the six request operations: each is the
atomic execution of the request whose header selects it and whose operand words it carries (log entry 8). -/

namespace Sys2Proof.Machine

/-- The case distinction of R91: the data words of an operation on its decoded arguments. -/
def operation : Op → List Word32 → List Word32
  | .crc => crcOp
  | .frameWrite => frameWriteOp
  | .frameRead => frameReadOp
  | .frameRaw4 => frameRaw4Op
  | .frameRaw => frameRawOp
  | .frameAuto => frameAutoOp

/-- The execution of the request with header `h` and operand words `ws` (R91): decode, then the operation's response or the
error response. -/
def runRequest (h : Word32) (ws : List Word32) (s : State) : State :=
  match requestDecode s.params.maxb h ws with
  | .error e => s.raiseError (opField h) e
  | .ok (op, args) => s.complete (opField h) (operation op args)

/-- `crc` (41_checksum.md R104). -/
def execCrc (ws : List Word32) (s : State) : Host.Outcome State Fault Refusal := .next (runRequest Op.crc.header ws s)

/-- `frame.write` (42_frame.md R124). -/
def execFrameWrite (ws : List Word32) (s : State) : Host.Outcome State Fault Refusal :=
  .next (runRequest Op.frameWrite.header ws s)

/-- `frame.read` (R125). -/
def execFrameRead (ws : List Word32) (s : State) : Host.Outcome State Fault Refusal :=
  .next (runRequest Op.frameRead.header ws s)

/-- `frame.raw4` (R126). -/
def execFrameRaw4 (ws : List Word32) (s : State) : Host.Outcome State Fault Refusal :=
  .next (runRequest Op.frameRaw4.header ws s)

/-- `frame.raw` (R127). -/
def execFrameRaw (ws : List Word32) (s : State) : Host.Outcome State Fault Refusal :=
  .next (runRequest Op.frameRaw.header ws s)

/-- `frame.auto` (R129). -/
def execFrameAuto (ws : List Word32) (s : State) : Host.Outcome State Fault Refusal :=
  .next (runRequest Op.frameAuto.header ws s)

end Sys2Proof.Machine
end

