-- ==== Sys2Proof/Machine/RegisterAccess.lean ====
section
/-! DEFINITION. The meanings of the nine host register accesses (40_register_access.md R90 to R98). -/

namespace Sys2Proof.Machine

/-- `wr REQ, v` (R90). -/
def execWrReq (v : Word32) (s : State) : Host.Outcome State Fault Refusal := .next (s.pushWord v)

/-- `wr REQ_LAST, v` (R91): the request is `asm ++ [v]`; if `asm` is empty, `v` is its header word. -/
def execWrReqLast (v : Word32) (s : State) : Host.Outcome State Fault Refusal :=
  match s.asm with
  | [] => .next (runRequest v [] s)
  | h :: ws => .next (runRequest h (ws ++ [v]) s)

/-- `wr ABORT, v` (R92): the value is ignored. -/
def execWrAbort (_v : Word32) (s : State) : Host.Outcome State Fault Refusal := .next s.discardRequest

/-- A write to a read-only or reserved offset (R93): no state change. -/
def execWrReadOnlyOrReserved (_off : Offset) (_v : Word32) (s : State) : Host.Outcome State Fault Refusal := .next s

/-- `rd STAT` (R94). -/
def execRdStat (s : State) : Host.Outcome State Fault Refusal := .next (s.returnRead (statWord s.asm))

/-- `rd RSP_STATUS` (R95). -/
def execRdRspStatus (s : State) : Host.Outcome State Fault Refusal := .next (s.returnRead s.rspStatus)

/-- `rd CAPS` (R96). -/
def execRdCaps (s : State) : Host.Outcome State Fault Refusal := .next (s.returnRead (capsWord s.params))

/-- `rd RSP_DATA[i]` (R97). -/
def execRdRspData (i : BitVec 8) (s : State) : Host.Outcome State Fault Refusal :=
  match s.rspWord i.toNat with
  | some w => .next (s.returnRead w)
  | none => .next s.returnDraw

/-- A read of a write-only or reserved offset (R98). -/
def execRdWriteOnlyOrReserved (_off : Offset) (s : State) : Host.Outcome State Fault Refusal :=
  .next (s.returnRead 0x00000000)

end Sys2Proof.Machine
end

