-- ==== Sys2Proof/Machine/Dispatch.lean ====
section
/-! DEFINITION. One arm per row of spec/opcode_table.json. -/

namespace Sys2Proof.Machine

def exec (i : Instr) (s : State) : Host.Outcome State Fault Refusal :=
  match i with
  | .crc ws => Sys2Proof.Machine.execCrc ws s
  | .frameWrite ws => Sys2Proof.Machine.execFrameWrite ws s
  | .frameRead ws => Sys2Proof.Machine.execFrameRead ws s
  | .frameRaw4 ws => Sys2Proof.Machine.execFrameRaw4 ws s
  | .frameRaw ws => Sys2Proof.Machine.execFrameRaw ws s
  | .frameAuto ws => Sys2Proof.Machine.execFrameAuto ws s
  | .wrReq v => Sys2Proof.Machine.execWrReq v s
  | .wrReqLast v => Sys2Proof.Machine.execWrReqLast v s
  | .wrAbort v => Sys2Proof.Machine.execWrAbort v s
  | .wrReadOnlyOrReserved off v => Sys2Proof.Machine.execWrReadOnlyOrReserved off v s
  | .rdStat => Sys2Proof.Machine.execRdStat s
  | .rdRspStatus => Sys2Proof.Machine.execRdRspStatus s
  | .rdCaps => Sys2Proof.Machine.execRdCaps s
  | .rdRspData idx => Sys2Proof.Machine.execRdRspData idx s
  | .rdWriteOnlyOrReserved off => Sys2Proof.Machine.execRdWriteOnlyOrReserved off s

end Sys2Proof.Machine
end

