-- ==== Sys2Proof/Machine/Step.lean ====
section
/-! DEFINITION. One step: the next event of the host side takes effect (10_state.md R20). -/

namespace Sys2Proof.Machine

/-- One bus access: the instruction it decodes to, or the refusal of 20_memory.md R57 and 40_register_access.md R99. -/
def performAccess (a : BusAccess) (s : State) : Host.Outcome State Fault Refusal :=
  match decodeAccess s.params a with
  | .error r => .refused (refusalOf r)
  | .ok i => exec i s

/-- One step. With no event outstanding the block does nothing (R20; log entry 6). A reset that coincides with an access
comes before it or after it, whichever is drawn (70_reset_and_hazards.md R181). -/
def step (s : State) : Host.Outcome State Fault Refusal :=
  match s.fetch with
  | none => .next s
  | some (.access a, t) => performAccess a t
  | some (.reset, t) => .next t.resetBlock
  | some (.accessDuringReset a, t) =>
    match t.drawResetOrder with
    | (true, u) => performAccess a u.resetBlock
    | (false, u) => thenReset (performAccess a u)

/-- `s` with the table word's instruction next: an access row is the host's next access; for a request row the words before
the last stand in `asm` and the host's next access writes the last one to REQ_LAST (log entry 9). -/
def State.withFetchWord (s : State) (nbits w : Nat) : State :=
  { s with
    asm := tableAsm nbits w s.asm
    pending := .access (tableNextAccess s.params nbits w) :: s.pending }

end Sys2Proof.Machine
end

