-- ==== Sys2Proof/Safety.lean ====
section
/-! DEFINITION. The terms claims are made in: what a response may be, the invariant of the block, admitted runs, and the operand
table and the frame bytes said in plain arithmetic. -/

namespace Sys2Proof.Machine

/-! ### Requests -/

/-- The operand counts R73 admits up to MAXB (30_encoding.md). -/
def admitsCount : Op → Nat → Prop
  | .crc, _ => True
  | .frameWrite, n => n = 4
  | .frameRead, n => n = 4
  | .frameRaw4, n => n = 6
  | .frameRaw, n => 2 ≤ n
  | .frameAuto, n => 2 ≤ n

/-- The declared width in bits of operand `k` (w1 is k = 0) among `n` (R73). -/
def operandWidth : Op → Nat → Nat → Nat
  | .frameWrite, _, k => if k < 2 then 8 else 16
  | .frameRead, _, k => if k < 2 then 8 else 16
  | .frameAuto, n, k => if n = 4 ∧ 2 ≤ k then 16 else 8
  | .crc, _, _ => 8
  | .frameRaw4, _, _ => 8
  | .frameRaw, _, _ => 8

/-- Operand `k` is wider than declared (60_exceptions.md R152, E_RANGE). -/
def operandTooWide (op : Op) (ws : List Word32) (k : Nat) : Prop :=
  ∃ w, ws[k]? = some w ∧ 2 ^ operandWidth op ws.length k ≤ w.toNat

/-- The four-bit values of R151, as a status word's low half sees them. -/
def errorStatus (opecho : Byte) (e : ErrCode) : Nat :=
  opecho.toNat * 0x100 + match e with
    | .opcode => 1
    | .tooLong => 2
    | .shape => 3
    | .range => 4

/-- `t` is `s` with the response of a request: `asm` emptied, status word `status`, data words `data`, nothing else changed. -/
def Responds (s t : State) (status : Nat) (data : List Word32) : Prop :=
  t = { s with asm := [], rspStatus := BitVec.ofNat 32 status, rspData := data }

/-- The bytes `body` with their CRC's low byte and then its high byte (42_frame.md R122), in arithmetic on numbers. -/
def sealedBytes (body : List Byte) : List Byte :=
  body ++ [BitVec.ofNat 8 ((computeCrc body).toNat % 256), BitVec.ofNat 8 ((computeCrc body).toNat / 256)]

/-- A byte sequence as response words: each byte's value, bits [31:8] zero (10_state.md R33). -/
def byteWords (bs : List Byte) : List Word32 := bs.map fun b => BitVec.ofNat 32 b.toNat

/-- The byte whose value is `n`. -/
abbrev byteVal (n : Nat) : Byte := BitVec.ofNat 8 n

/-! ### The invariant -/

/-- The last two bytes are the CRC of the others, least significant byte first (41_checksum.md R109). -/
def WellSealed (fr : List Byte) : Prop :=
  fr.drop (fr.length - 2) = le16 (computeCrc (fr.take (fr.length - 2)))

/-- No request has completed since reset (10_state.md R30). -/
def NoResponse (s : State) : Prop := s.rspStatus = 0 ∧ s.rspData = []

/-- The response of a request that failed (60_exceptions.md R154, R155); only E_OPCODE goes with a reserved OP, and `crc` never
raises E_SHAPE (R152). -/
def ErrorResponse (s : State) : Prop :=
  ∃ opecho e, s.rspStatus = BitVec.ofNat 32 (errorStatus opecho e) ∧ s.rspData = [] ∧
    (e = .opcode ∨ ∃ op : Op, op.code = opecho ∧ (e = .shape → op ≠ .crc))

/-- The response of a `crc` request (41_checksum.md R104). -/
def CrcResponse (s : State) : Prop :=
  ∃ c : U16, s.rspStatus = 0x00010100 ∧ s.rspData = [BitVec.ofNat 32 c.toNat]

/-- The response of a frame operation (42_frame.md R128): a whole frame with its right CRC, of an admitted length. -/
def FrameResponse (s : State) : Prop :=
  ∃ (op : Op) (fr : List Byte), op ≠ .crc ∧ WellSealed fr ∧ 4 ≤ fr.length ∧ fr.length ≤ s.params.frameMax ∧
    (op = .frameWrite ∨ op = .frameRead ∨ op = .frameRaw4 → fr.length = 8) ∧
    s.rspStatus = BitVec.ofNat 32 (fr.length * 0x10000 + op.code.toNat * 0x100) ∧ s.rspData = byteWords fr

/-- The invariant: the parameters are legal ones, and the response is a response. -/
def Inv (s : State) : Prop :=
  s.params.wf ∧ (NoResponse s ∨ ErrorResponse s ∨ CrcResponse s ∨ FrameResponse s)

/-! ### Safe runs -/

/-- The access of an event, if any, is one that 20_memory.md R57 admits. -/
def eventAdmitted (P : Params) : HostEvent → Prop
  | .access a => a.admitted P
  | .reset => True
  | .accessDuringReset a => a.admitted P

/-- A host program all of whose accesses 20_memory.md R57 admits. -/
def AdmittedProgram (s : State) : Prop := ∀ e ∈ s.pending, eventAdmitted s.params e

/-- The block's record is unchanged (10_state.md R23). -/
def SameBlock (s t : State) : Prop := t.asm = s.asm ∧ t.rspStatus = s.rspStatus ∧ t.rspData = s.rspData

/-- Everything but the block's record is unchanged. -/
def SameHostSide (s t : State) : Prop :=
  t.params = s.params ∧ t.pending = s.pending ∧ t.observed = s.observed ∧ t.draws = s.draws

/-- An event that may write the response (10_state.md R30): a REQ_LAST write or a reset. -/
def writesResponse (P : Params) : HostEvent → Prop
  | .access a => ∃ v, a = memWrite P 0x004 v
  | .reset => True
  | .accessDuringReset _ => True

/-- An event that may change `asm` (20_memory.md R58): a write of REQ, REQ_LAST or ABORT, or a reset. -/
def writesAsm (P : Params) : HostEvent → Prop
  | .access a => ∃ v, a = memWrite P 0x000 v ∨ a = memWrite P 0x004 v ∨ a = memWrite P 0x014 v
  | .reset => True
  | .accessDuringReset _ => True

end Sys2Proof.Machine
end

