-- ==== Sys2Proof/Certificates/Slice0/Obligations.lean ====
section
/-! DEFINITION. The statements for the provers. -/

open Sys2Proof Sys2Proof.Machine

/-! ### Host register accesses (40_register_access.md) -/

/-- R90, whole: the encoding of `wr REQ`, its effect on any state, STAT afterwards, and how a request that has become longer than
MAXB + 1 words completes. -/
def Obligations.WrReqAppendsOneWord : Prop :=
  ∀ (P : Params) (s : State) (v : Word32),
    decode P (.access { addr := P.base + 0x000, bits := 32, transfer := .write v }) = .ok (.wrReq v) ∧
    exec (.wrReq v) s = .next { s with asm := s.asm ++ [v] } ∧
    pend (s.asm ++ [v]) = 1 ∧ (acnt (s.asm ++ [v])).toNat = min ((acnt s.asm).toNat + 1) 0xFFFF ∧
    ∀ (h last : Word32) (ws : List Word32), s.asm ++ [last] = h :: ws → s.params.maxb + 1 < (s.asm ++ [last]).length →
      ∃ t, exec (.wrReqLast last) s = .next t ∧
        ecodeField t.rspStatus = if (decodeHeader h).isSome then 0x2 else 0x1

/-- R92, whole. -/
def Obligations.WrAbortDiscardsTheRequest : Prop :=
  ∀ (P : Params) (s : State) (v : Word32),
    decode P (.access { addr := P.base + 0x014, bits := 32, transfer := .write v }) = .ok (.wrAbort v) ∧
    exec (.wrAbort v) s = .next { s with asm := [] } ∧ statWord [] = 0x00000000 ∧
    (s.asm = [] → exec (.wrAbort v) s = .next s)

/-- R93, whole: the offsets it lists decode to the ignored write, which changes nothing. -/
def Obligations.IgnoredWriteChangesNothing : Prop :=
  ∀ (P : Params) (s : State) (off : Offset) (v : Word32), off.toNat % 4 = 0 →
    (off.toNat = 0x008 ∨ off.toNat = 0x00C ∨ off.toNat = 0x010 ∨ (0x400 ≤ off.toNat ∧ off.toNat ≤ 0x7FC) ∨
      (0x018 ≤ off.toNat ∧ off.toNat ≤ 0x3FC) ∨ (0x800 ≤ off.toNat ∧ off.toNat ≤ 0xFFC)) →
    decode P (.access { addr := P.base + off.toNat, bits := 32, transfer := .write v }) = .ok (.wrReadOnlyOrReserved off v) ∧
    exec (.wrReadOnlyOrReserved off v) s = .next s

/-- R94, whole: the value, in the rule's own arithmetic, and that nothing is written. -/
def Obligations.RdStatReturnsPendAndCount : Prop :=
  ∀ (P : Params) (s : State),
    decode P (.access { addr := P.base + 0x008, bits := 32, transfer := .read }) = .ok .rdStat ∧
    ∃ w : Word32, exec .rdStat s = .next { s with observed := s.observed ++ [w] } ∧
      w.toNat = min s.asm.length 0xFFFF * 0x10000 + (if 0 < s.asm.length then 1 else 0)

/-- R29, whole: the fields of STAT on any buffer, its reset value, and that a write of it is ignored. -/
def Obligations.StatFieldsFollowTheBuffer : Prop :=
  (∀ asm : List Word32,
    ((statWord asm).extractLsb' 0 1 = 1 ↔ asm ≠ []) ∧ (statWord asm).extractLsb' 1 15 = 0 ∧
    ((statWord asm).extractLsb' 16 16).toNat = min asm.length 0xFFFF) ∧
  statWord State.reset.asm = 0x00000000 ∧
  (∀ (P : Params) (s : State) (v : Word32), ∃ i,
    decode P (.access { addr := P.base + 0x008, bits := 32, transfer := .write v }) = .ok i ∧ exec i s = .next s)

/-- R95, whole. -/
def Obligations.RdRspStatusReturnsTheStatus : Prop :=
  (∀ (P : Params) (s : State),
    decode P (.access { addr := P.base + 0x00C, bits := 32, transfer := .read }) = .ok .rdRspStatus ∧
    exec .rdRspStatus s = .next { s with observed := s.observed ++ [s.rspStatus] }) ∧
  State.reset.rspStatus = 0x00000000

/-- R96, whole: the value is MAXB, for every MAXB that R8 admits, and no step of any kind changes it. -/
def Obligations.RdCapsReturnsMaxb : Prop :=
  (∀ (P : Params) (s : State), s.params.wf →
    decode P (.access { addr := P.base + 0x010, bits := 32, transfer := .read }) = .ok .rdCaps ∧
    ∃ w : Word32, exec .rdCaps s = .next { s with observed := s.observed ++ [w] } ∧ w.toNat = s.params.maxb) ∧
  (∀ s t : State, step s = .next t → t.params = s.params)

/-- R97, whole, in every state that meets the invariant: the stored word below LEN and its zero high bits, some value (nothing is
said of it) from LEN on, no flag written, and LEN 0 after an error. -/
def Obligations.RdRspDataReturnsStoredOrDrawn : Prop :=
  ∀ (P : Params) (i : BitVec 8) (s : State), Inv s →
    decode P (.access { addr := P.base + (0x400 + 4 * i.toNat), bits := 32, transfer := .read }) = .ok (.rdRspData i) ∧
    (i.toNat < (lenField s.rspStatus).toNat →
      ∃ w, s.rspData[i.toNat]? = some w ∧ exec (.rdRspData i) s = .next { s with observed := s.observed ++ [w] } ∧
        (if opechoField s.rspStatus = 0x01 then w.toNat < 0x10000 else w.toNat < 0x100)) ∧
    ((lenField s.rspStatus).toNat ≤ i.toNat →
      ∃ w t, exec (.rdRspData i) s = .next t ∧ t.observed = s.observed ++ [w] ∧ SameBlock s t) ∧
    (ecodeField s.rspStatus ≠ 0 → (lenField s.rspStatus).toNat = 0)

/-- R34: from LEN on the value is a drawn one and no block state changes; after reset every index is such. -/
def Obligations.RdRspDataFromLenOnIsUnspecified : Prop :=
  (∀ (i : BitVec 8) (s : State), (lenField s.rspStatus).toNat ≤ i.toNat →
    ∃ w t, exec (.rdRspData i) s = .next t ∧ t.observed = s.observed ++ [w] ∧ SameBlock s t ∧ t.params = s.params ∧
      t.pending = s.pending) ∧
  (∀ i : BitVec 8, (lenField State.reset.rspStatus).toNat ≤ i.toNat)

/-- The form the model gives `draw()` (its own choice, log entry 2): the opaque constant at the draw counter, which advances, so
that no two draws of a run are tied to each other; nothing is said of the value. -/
def Obligations.EveryDrawIsAtItsOwnCount : Prop :=
  ∀ (i : BitVec 8) (s : State), (lenField s.rspStatus).toNat ≤ i.toNat →
    exec (.rdRspData i) s = .next { s with observed := s.observed ++ [Config.draw s.draws], draws := s.draws + 1 }

/-- R98, whole. -/
def Obligations.ReadOfWriteOnlyOrReservedReturnsZero : Prop :=
  ∀ (P : Params) (s : State) (off : Offset), off.toNat % 4 = 0 →
    (off.toNat = 0x000 ∨ off.toNat = 0x004 ∨ off.toNat = 0x014 ∨ (0x018 ≤ off.toNat ∧ off.toNat ≤ 0x3FC) ∨
      (0x800 ≤ off.toNat ∧ off.toNat ≤ 0xFFC)) →
    decode P (.access { addr := P.base + off.toNat, bits := 32, transfer := .read }) = .ok (.rdWriteOnlyOrReserved off) ∧
    exec (.rdWriteOnlyOrReserved off) s = .next { s with observed := s.observed ++ [0x00000000] }

/-- R91, whole: the request is `asm ++ [v]` (its header `v` if `asm` is empty); it is decoded and runs, or its error response is
written; in every case `asm` is emptied, the response replaced whole and nothing else changed. -/
def Obligations.WrReqLastExecutesTheRequest : Prop :=
  ∀ (P : Params) (s : State) (v h : Word32) (ws : List Word32), s.asm ++ [v] = h :: ws →
    decode P (.access { addr := P.base + 0x004, bits := 32, transfer := .write v }) = .ok (.wrReqLast v) ∧
    (∀ op args, requestDecode s.params.maxb h ws = .ok (op, args) →
      ∃ data t, data = (match op with
          | .crc => crcOp args
          | .frameWrite => frameWriteOp args
          | .frameRead => frameReadOp args
          | .frameRaw4 => frameRaw4Op args
          | .frameRaw => frameRawOp args
          | .frameAuto => frameAutoOp args) ∧
        exec (.wrReqLast v) s = .next t ∧ t.asm = [] ∧ t.rspData = data ∧
        (data.length < 0x10000 → (lenField t.rspStatus).toNat = data.length) ∧ opechoField t.rspStatus = h.extractLsb' 0 8 ∧
        reservedField t.rspStatus = 0 ∧ ecodeField t.rspStatus = 0 ∧ SameHostSide s t) ∧
    (∀ e, requestDecode s.params.maxb h ws = .error e →
      ∃ t, exec (.wrReqLast v) s = .next t ∧ Responds s t (errorStatus (h.extractLsb' 0 8) e) [])

/-! ### Decoding a request, its errors (30_encoding.md, 60_exceptions.md) -/

/-- R71, R76, R77: exactly the six OP values with RSVD zero are legal; every other header completes with E_OPCODE, whatever the
operands, and a legal one runs its operation on the operand words. -/
def Obligations.IllegalHeaderCompletesWithEOpcode : Prop :=
  ∀ (s : State) (v h : Word32) (ws : List Word32), s.asm ++ [v] = h :: ws →
    (h.toNat ≠ 0x01 ∧ h.toNat ≠ 0x10 ∧ h.toNat ≠ 0x11 ∧ h.toNat ≠ 0x12 ∧ h.toNat ≠ 0x13 ∧ h.toNat ≠ 0x14 →
      ∃ t, exec (.wrReqLast v) s = .next t ∧ Responds s t (h.toNat % 0x100 * 0x100 + 1) []) ∧
    (h.toNat = 0x01 → exec (.wrReqLast v) s = exec (.crc ws) s) ∧
    (h.toNat = 0x10 → exec (.wrReqLast v) s = exec (.frameWrite ws) s) ∧
    (h.toNat = 0x11 → exec (.wrReqLast v) s = exec (.frameRead ws) s) ∧
    (h.toNat = 0x12 → exec (.wrReqLast v) s = exec (.frameRaw4 ws) s) ∧
    (h.toNat = 0x13 → exec (.wrReqLast v) s = exec (.frameRaw ws) s) ∧
    (h.toNat = 0x14 → exec (.wrReqLast v) s = exec (.frameAuto ws) s)

/-- R152, R153, R155: a request completes with the error response of the first check that fails, in the order E_OPCODE,
E_TOOLONG, E_SHAPE, E_RANGE, and with ECODE 0 where none does. -/
def Obligations.FirstFailingCheckDecidesTheCode : Prop :=
  ∀ (s : State) (v h : Word32) (ws : List Word32), s.asm ++ [v] = h :: ws →
    ((∀ op : Op, h.toNat ≠ op.code.toNat) →
      ∃ t, exec (.wrReqLast v) s = .next t ∧ Responds s t (errorStatus (BitVec.ofNat 8 h.toNat) .opcode) []) ∧
    ∀ op : Op, h.toNat = op.code.toNat →
      (s.params.maxb < ws.length →
        ∃ t, exec (.wrReqLast v) s = .next t ∧ Responds s t (errorStatus op.code .tooLong) []) ∧
      (ws.length ≤ s.params.maxb → ¬ admitsCount op ws.length →
        ∃ t, exec (.wrReqLast v) s = .next t ∧ Responds s t (errorStatus op.code .shape) []) ∧
      (ws.length ≤ s.params.maxb → admitsCount op ws.length → (∃ k, operandTooWide op ws k) →
        ∃ t, exec (.wrReqLast v) s = .next t ∧ Responds s t (errorStatus op.code .range) []) ∧
      (ws.length ≤ s.params.maxb → admitsCount op ws.length → (¬ ∃ k, operandTooWide op ws k) →
        ∃ t, exec (.wrReqLast v) s = .next t ∧ ecodeField t.rspStatus = 0)

/-- R73 and R75 against each other: a request instruction completes with ECODE 0 exactly where it is well formed. -/
def Obligations.WellFormedRequestsAreTheOnesThatSucceed : Prop :=
  ∀ (op : Op) (ws : List Word32) (s : State), s.params.wf →
    ∃ t, exec (Instr.ofOp op ws) s = .next t ∧
      ((Instr.ofOp op ws).wf s.params.maxb = true ↔ ecodeField t.rspStatus = 0)

/-- R154, R155, R156: what an error records, and that it changes nothing else. -/
def Obligations.ErrorsArePrecise : Prop :=
  ∀ (s t : State) (v h : Word32) (ws : List Word32), s.asm ++ [v] = h :: ws → exec (.wrReqLast v) s = .next t →
    ecodeField t.rspStatus ≠ 0 →
      (lenField t.rspStatus).toNat = 0 ∧ opechoField t.rspStatus = h.extractLsb' 0 8 ∧ reservedField t.rspStatus = 0 ∧
      ecodeField t.rspStatus ≤ 4 ∧ t.rspData = [] ∧ t.asm = [] ∧
      t = { s with asm := [], rspStatus := t.rspStatus, rspData := [] }

/-! ### The Checksum Engine (41_checksum.md) -/

/-- R101 to R103 in arithmetic on numbers: one bit iteration, one byte, and the seed and the order of bytes. -/
def Obligations.CrcIsTheModbusCrc : Prop :=
  (∀ acc : U16, (crcStep1 acc).toNat =
    if acc.toNat % 2 = 1 then (acc.toNat / 2) ^^^ 0xA001 else acc.toNat / 2) ∧
  (∀ (acc : U16) (b : Byte), crcByte acc b =
    crcStep1 (crcStep1 (crcStep1 (crcStep1 (crcStep1 (crcStep1 (crcStep1 (crcStep1
      (BitVec.ofNat 16 (acc.toNat ^^^ b.toNat)))))))))) ∧
  computeCrc [] = 0xFFFF ∧
  (∀ (bs : List Byte) (b : Byte), computeCrc (bs ++ [b]) = crcByte (computeCrc bs) b)

/-- R104, whole: the result, the three errors with their codes, and the corner cases. -/
def Obligations.CrcRequestReturnsTheCrc : Prop :=
  (∀ (s : State) (ws : List Word32), ws.length ≤ s.params.maxb → (∀ w ∈ ws, w.toNat ≤ 0xFF) →
    ∃ t, exec (.crc ws) s = .next t ∧
      Responds s t 0x00010100 [BitVec.ofNat 32 (computeCrc (ws.map fun w => byteVal w.toNat)).toNat]) ∧
  (∀ s : State, ∃ t, exec (.crc []) s = .next t ∧ Responds s t 0x00010100 [0x0000FFFF]) ∧
  (∀ (s : State) (ws : List Word32), s.params.maxb < ws.length →
    ∃ t, exec (.crc ws) s = .next t ∧ Responds s t 0x00000102 []) ∧
  (∀ (s : State) (ws : List Word32), ws.length ≤ s.params.maxb → (∃ w ∈ ws, 0xFF < w.toNat) →
    ∃ t, exec (.crc ws) s = .next t ∧ Responds s t 0x00000104 []) ∧
  (∀ (s : State) (v h : Word32) (ws : List Word32), s.asm ++ [v] = h :: ws → h.toNat % 0x100 = 0x01 → 0x100 ≤ h.toNat →
    ∃ t, exec (.wrReqLast v) s = .next t ∧ Responds s t 0x00000101 []) ∧
  (∀ (s : State) (fr : List Byte), fr.length ≤ s.params.maxb → 2 ≤ fr.length → WellSealed fr →
    ∃ t, exec (.crc (byteWords fr)) s = .next t ∧ Responds s t 0x00010100 [0x00000000])

/-- R106: the table-driven form, and the table values the rule prints. -/
def Obligations.TableDrivenFormIsEqual : Prop :=
  (∀ (acc : U16) (b : Byte), crcByte acc b =
    (acc >>> 8) ^^^ crcSteps 8 (BitVec.ofNat 16 ((acc ^^^ b.setWidth 16).toNat % 256))) ∧
  crcSteps 8 0x00 = 0x0000 ∧ crcSteps 8 0x01 = 0xC0C1 ∧ crcSteps 8 0x02 = 0xC181 ∧ crcSteps 8 0x03 = 0x0140 ∧
  crcSteps 8 0x80 = 0xA001 ∧ crcSteps 8 0xFF = 0x4040

/-- R107: linearity of one and of eight iterations, the residue, and the prefix law (the width is the type). -/
def Obligations.CrcObeysItsLaws : Prop :=
  (∀ a b : U16, crcStep1 (a ^^^ b) = crcStep1 a ^^^ crcStep1 b ∧ crcSteps 8 (a ^^^ b) = crcSteps 8 a ^^^ crcSteps 8 b) ∧
  (∀ bs : List Byte, computeCrc (bs ++ le16 (computeCrc bs)) = 0x0000) ∧
  (∀ xs ys : List Byte, computeCrc (xs ++ ys) = ys.foldl crcByte (computeCrc xs))

/-! ### The Frame Builder (42_frame.md) -/

/-- R124, whole: the frame in every byte, for every address and function code, and the errors with their codes. -/
def Obligations.FrameWriteBuildsTheFrame : Prop :=
  (∀ (s : State) (a f p0 p1 : Word32), s.params.wf → a.toNat ≤ 0xFF → f.toNat ≤ 0xFF → p0.toNat ≤ 0xFFFF → p1.toNat ≤ 0xFFFF →
    ∃ t, exec (.frameWrite [a, f, p0, p1]) s = .next t ∧
      Responds s t 0x00081000 (byteWords (sealedBytes [byteVal a.toNat, byteVal f.toNat, byteVal (p0.toNat / 256),
        byteVal (p0.toNat % 256), byteVal (p1.toNat / 256), byteVal (p1.toNat % 256)]))) ∧
  (∀ (s : State) (ws : List Word32), s.params.maxb < ws.length →
    ∃ t, exec (.frameWrite ws) s = .next t ∧ Responds s t 0x00001002 []) ∧
  (∀ (s : State) (ws : List Word32), ws.length ≤ s.params.maxb → ws.length ≠ 4 →
    ∃ t, exec (.frameWrite ws) s = .next t ∧ Responds s t 0x00001003 []) ∧
  (∀ (s : State) (a f p0 p1 : Word32), s.params.wf →
    0xFF < a.toNat ∨ 0xFF < f.toNat ∨ 0xFFFF < p0.toNat ∨ 0xFFFF < p1.toNat →
    ∃ t, exec (.frameWrite [a, f, p0, p1]) s = .next t ∧ Responds s t 0x00001004 []) ∧
  (∀ (s : State) (v h : Word32) (ws : List Word32), s.asm ++ [v] = h :: ws → h.toNat % 0x100 = 0x10 → 0x100 ≤ h.toNat →
    ∃ t, exec (.wrReqLast v) s = .next t ∧ Responds s t 0x00001001 [])

/-- R125, whole: the same frame bytes as `frame.write` on the same operands (only OPECHO differs), and the errors. -/
def Obligations.FrameReadBuildsTheFrame : Prop :=
  (∀ (s : State) (a f st q : Word32), s.params.wf → a.toNat ≤ 0xFF → f.toNat ≤ 0xFF → st.toNat ≤ 0xFFFF → q.toNat ≤ 0xFFFF →
    ∃ t u, exec (.frameRead [a, f, st, q]) s = .next t ∧ exec (.frameWrite [a, f, st, q]) s = .next u ∧
      t.rspData = u.rspData ∧
      Responds s t 0x00081100 (byteWords (sealedBytes [byteVal a.toNat, byteVal f.toNat, byteVal (st.toNat / 256),
        byteVal (st.toNat % 256), byteVal (q.toNat / 256), byteVal (q.toNat % 256)]))) ∧
  (∀ (s : State) (ws : List Word32), s.params.maxb < ws.length →
    ∃ t, exec (.frameRead ws) s = .next t ∧ Responds s t 0x00001102 []) ∧
  (∀ (s : State) (ws : List Word32), ws.length ≤ s.params.maxb → ws.length ≠ 4 →
    ∃ t, exec (.frameRead ws) s = .next t ∧ Responds s t 0x00001103 []) ∧
  (∀ (s : State) (a f st q : Word32), s.params.wf →
    0xFF < a.toNat ∨ 0xFF < f.toNat ∨ 0xFFFF < st.toNat ∨ 0xFFFF < q.toNat →
    ∃ t, exec (.frameRead [a, f, st, q]) s = .next t ∧ Responds s t 0x00001104 []) ∧
  (∀ (s : State) (v h : Word32) (ws : List Word32), s.asm ++ [v] = h :: ws → h.toNat % 0x100 = 0x11 → 0x100 ≤ h.toNat →
    ∃ t, exec (.wrReqLast v) s = .next t ∧ Responds s t 0x00001101 [])

/-- R126, whole: four bytes verbatim, the errors, and the agreement with `frame.write` on the same bytes. -/
def Obligations.FrameRaw4BuildsTheFrame : Prop :=
  (∀ (s : State) (a f b0 b1 b2 b3 : Word32), s.params.wf → (∀ w ∈ [a, f, b0, b1, b2, b3], w.toNat ≤ 0xFF) →
    ∃ t, exec (.frameRaw4 [a, f, b0, b1, b2, b3]) s = .next t ∧
      Responds s t 0x00081200 (byteWords (sealedBytes [byteVal a.toNat, byteVal f.toNat, byteVal b0.toNat, byteVal b1.toNat,
        byteVal b2.toNat, byteVal b3.toNat]))) ∧
  (∀ (s : State) (ws : List Word32), s.params.maxb < ws.length →
    ∃ t, exec (.frameRaw4 ws) s = .next t ∧ Responds s t 0x00001202 []) ∧
  (∀ (s : State) (ws : List Word32), ws.length ≤ s.params.maxb → ws.length ≠ 6 →
    ∃ t, exec (.frameRaw4 ws) s = .next t ∧ Responds s t 0x00001203 []) ∧
  (∀ (s : State) (ws : List Word32), s.params.wf → ws.length = 6 → (∃ w ∈ ws, 0xFF < w.toNat) →
    ∃ t, exec (.frameRaw4 ws) s = .next t ∧ Responds s t 0x00001204 []) ∧
  (∀ (s : State) (v h : Word32) (ws : List Word32), s.asm ++ [v] = h :: ws → h.toNat % 0x100 = 0x12 → 0x100 ≤ h.toNat →
    ∃ t, exec (.wrReqLast v) s = .next t ∧ Responds s t 0x00001201 []) ∧
  (∀ (s : State) (a f p0 p1 : Word32), s.params.wf → a.toNat ≤ 0xFF → f.toNat ≤ 0xFF → p0.toNat ≤ 0xFFFF → p1.toNat ≤ 0xFFFF →
    ∃ t u, exec (.frameRaw4 [a, f, BitVec.ofNat 32 (p0.toNat / 256), BitVec.ofNat 32 (p0.toNat % 256),
        BitVec.ofNat 32 (p1.toNat / 256), BitVec.ofNat 32 (p1.toNat % 256)]) s = .next t ∧
      exec (.frameWrite [a, f, p0, p1]) s = .next u ∧ t.rspData = u.rspData)

/-- R127, whole: the frame of every payload length from 0 to MAXB - 2, the errors, and the agreement with `frame.raw4`. -/
def Obligations.FrameRawBuildsTheFrame : Prop :=
  (∀ (s : State) (ws : List Word32), s.params.wf → 2 ≤ ws.length → ws.length ≤ s.params.maxb → (∀ w ∈ ws, w.toNat ≤ 0xFF) →
    ∃ t, exec (.frameRaw ws) s = .next t ∧
      Responds s t ((ws.length + 2) * 0x10000 + 0x1300) (byteWords (sealedBytes (ws.map fun w => byteVal w.toNat)))) ∧
  (∀ (s : State) (ws : List Word32), s.params.maxb < ws.length →
    ∃ t, exec (.frameRaw ws) s = .next t ∧ Responds s t 0x00001302 []) ∧
  (∀ (s : State) (ws : List Word32), ws.length ≤ s.params.maxb → ws.length < 2 →
    ∃ t, exec (.frameRaw ws) s = .next t ∧ Responds s t 0x00001303 []) ∧
  (∀ (s : State) (ws : List Word32), 2 ≤ ws.length → ws.length ≤ s.params.maxb → (∃ w ∈ ws, 0xFF < w.toNat) →
    ∃ t, exec (.frameRaw ws) s = .next t ∧ Responds s t 0x00001304 []) ∧
  (∀ (s : State) (v h : Word32) (ws : List Word32), s.asm ++ [v] = h :: ws → h.toNat % 0x100 = 0x13 → 0x100 ≤ h.toNat →
    ∃ t, exec (.wrReqLast v) s = .next t ∧ Responds s t 0x00001301 []) ∧
  (∀ (s : State) (ws : List Word32), s.params.wf → ws.length = 6 → (∀ w ∈ ws, w.toNat ≤ 0xFF) →
    ∃ t u, exec (.frameRaw ws) s = .next t ∧ exec (.frameRaw4 ws) s = .next u ∧ t.rspData = u.rspData)

/-- R129, whole: two parameters are two 16-bit fields, any other number is raw bytes; the errors, with the width that the number
of parameters gives. -/
def Obligations.FrameAutoDispatchesOnTheCount : Prop :=
  (∀ (s : State) (a f v0 v1 : Word32), s.params.wf → a.toNat ≤ 0xFF → f.toNat ≤ 0xFF → v0.toNat ≤ 0xFFFF → v1.toNat ≤ 0xFFFF →
    ∃ t, exec (.frameAuto [a, f, v0, v1]) s = .next t ∧
      Responds s t 0x00081400 (byteWords (sealedBytes [byteVal a.toNat, byteVal f.toNat, byteVal (v0.toNat / 256),
        byteVal (v0.toNat % 256), byteVal (v1.toNat / 256), byteVal (v1.toNat % 256)]))) ∧
  (∀ (s : State) (ws : List Word32), s.params.wf → 2 ≤ ws.length → ws.length ≠ 4 → ws.length ≤ s.params.maxb →
    (∀ w ∈ ws, w.toNat ≤ 0xFF) →
    ∃ t, exec (.frameAuto ws) s = .next t ∧
      Responds s t ((ws.length + 2) * 0x10000 + 0x1400) (byteWords (sealedBytes (ws.map fun w => byteVal w.toNat)))) ∧
  (∀ (s : State) (ws : List Word32), s.params.maxb < ws.length →
    ∃ t, exec (.frameAuto ws) s = .next t ∧ Responds s t 0x00001402 []) ∧
  (∀ (s : State) (ws : List Word32), ws.length ≤ s.params.maxb → ws.length < 2 →
    ∃ t, exec (.frameAuto ws) s = .next t ∧ Responds s t 0x00001403 []) ∧
  (∀ (s : State) (a f v0 v1 : Word32), s.params.wf →
    0xFF < a.toNat ∨ 0xFF < f.toNat ∨ 0xFFFF < v0.toNat ∨ 0xFFFF < v1.toNat →
    ∃ t, exec (.frameAuto [a, f, v0, v1]) s = .next t ∧ Responds s t 0x00001404 []) ∧
  (∀ (s : State) (ws : List Word32), 2 ≤ ws.length → ws.length ≠ 4 → ws.length ≤ s.params.maxb → (∃ w ∈ ws, 0xFF < w.toNat) →
    ∃ t, exec (.frameAuto ws) s = .next t ∧ Responds s t 0x00001404 []) ∧
  (∀ (s : State) (v h : Word32) (ws : List Word32), s.asm ++ [v] = h :: ws → h.toNat % 0x100 = 0x14 → 0x100 ≤ h.toNat →
    ∃ t, exec (.wrReqLast v) s = .next t ∧ Responds s t 0x00001401 [])

/-- R109: the last two bytes of every frame the block produces are the CRC of the others, least significant byte first. -/
def Obligations.EveryFrameCarriesItsCrc : Prop :=
  ∀ (op : Op) (ws : List Word32) (s t : State), op ≠ .crc → exec (Instr.ofOp op ws) s = .next t →
    ecodeField t.rspStatus = 0 →
    ∃ fr : List Byte, t.rspData = byteWords fr ∧
      le16 (computeCrc (fr.take (fr.length - 2))) = fr.drop (fr.length - 2) ∧ computeCrc fr = 0x0000

/-- R128: totality, the length and its bounds, self-consistency, all or nothing, and the response words. -/
def Obligations.EveryFrameOperationIsTotalAndSized : Prop :=
  ∀ (op : Op) (ws : List Word32) (s : State), op ≠ .crc → s.params.wf →
    ∃ t, exec (Instr.ofOp op ws) s = .next t ∧
      ((Instr.ofOp op ws).wf s.params.maxb = true →
        ∃ fr : List Byte, t.rspData = byteWords fr ∧ (lenField t.rspStatus).toNat = fr.length ∧
          ecodeField t.rspStatus = 0 ∧ 4 ≤ fr.length ∧ fr.length ≤ s.params.maxb + 2 ∧
          (if op = .frameRaw ∨ (op = .frameAuto ∧ ws.length ≠ 4) then fr.length = ws.length + 2 else fr.length = 8) ∧
          WellSealed fr ∧ computeCrc fr = 0x0000) ∧
      ((Instr.ofOp op ws).wf s.params.maxb = false → (lenField t.rspStatus).toNat = 0 ∧ t.rspData = [])

/-- R121: no protocol value is rejected. Where a frame operation succeeds it frames the address and the function code it was given,
and it succeeds with any other address and function code too, with a frame of the same length. -/
def Obligations.AddressAndFunctionCodeAreNotValidated : Prop :=
  ∀ (op : Op) (s : State) (a f : Word32) (rest : List Word32), op ≠ .crc → s.params.wf →
    (Instr.ofOp op (a :: f :: rest)).wf s.params.maxb = true →
    ∃ t data, exec (Instr.ofOp op (a :: f :: rest)) s = .next t ∧ ecodeField t.rspStatus = 0 ∧ t.rspData = a :: f :: data ∧
      ∀ a' f' : Word32, a'.toNat ≤ 0xFF → f'.toNat ≤ 0xFF →
        ∃ u data', exec (Instr.ofOp op (a' :: f' :: rest)) s = .next u ∧ u.rspStatus = t.rspStatus ∧
          u.rspData = a' :: f' :: data'

/-- The block never shows a frame with a wrong CRC (R132): in every state that meets the invariant, a response whose OPECHO is not
crc's and whose LEN is not 0 is a well-sealed frame. -/
def Obligations.NoFrameWithAWrongCrcIsEverShown : Prop :=
  ∀ s : State, Inv s → opechoField s.rspStatus ≠ 0x01 → (lenField s.rspStatus).toNat ≠ 0 →
    WellSealed (s.rspData.map byteOf) ∧ computeCrc (s.rspData.map byteOf) = 0x0000

/-! ### Independence of calls -/

/-- R108 and R131: two requests with equal words give equal responses, whatever the two states hold otherwise. -/
def Obligations.ResponseDependsOnTheRequestAlone : Prop :=
  ∀ (i : Instr) (req : List Word32) (s t : State) (rs rt : List HostEvent), s.params = t.params →
    encode s.params i = .request req → s.asm = [] → t.asm = [] →
    s.pending = accessEvents (issue s.params i) ++ rs → t.pending = accessEvents (issue t.params i) ++ rt →
    ∃ s' t', Host.Core.run core req.length s = .next s' ∧ Host.Core.run core req.length t = .next t' ∧
      s'.rspStatus = t'.rspStatus ∧ s'.rspData = t'.rspData

/-! ### Frames: what an instruction leaves unchanged -/

/-- The request operations and `wr REQ_LAST` change the response and empty `asm`; nothing else (R91, R156). -/
def Obligations.RequestFrame : Prop :=
  (∀ (op : Op) (ws : List Word32) (s t : State), exec (Instr.ofOp op ws) s = .next t → t.asm = [] ∧ SameHostSide s t) ∧
  (∀ (v : Word32) (s t : State), exec (.wrReqLast v) s = .next t → t.asm = [] ∧ SameHostSide s t)

/-- `wr REQ`, `wr ABORT` and an ignored write leave the response and the host side unchanged (R90, R92, R93). -/
def Obligations.WriteFrame : Prop :=
  ∀ (i : Instr) (v : Word32) (off : Offset) (s t : State),
    i = .wrReq v ∨ i = .wrAbort v ∨ i = .wrReadOnlyOrReserved off v → exec i s = .next t →
      t.rspStatus = s.rspStatus ∧ t.rspData = s.rspData ∧ SameHostSide s t

/-- Every read leaves the block unchanged and returns exactly one value (20_memory.md R58). -/
def Obligations.ReadFrame : Prop :=
  ∀ (i : Instr) (idx : BitVec 8) (off : Offset) (s : State),
    i = .rdStat ∨ i = .rdRspStatus ∨ i = .rdCaps ∨ i = .rdRspData idx ∨ i = .rdWriteOnlyOrReserved off →
      ∃ t w, exec i s = .next t ∧ SameBlock s t ∧ t.params = s.params ∧ t.pending = s.pending ∧
        t.observed = s.observed ++ [w]

/-! ### The step -/

/-- A step runs the decoded instruction: the next access, taken off the program, decodes to `i`, and the step is `exec i`. -/
def Obligations.StepRunsTheDecodedInstruction : Prop :=
  ∀ (s : State) (a : BusAccess) (rest : List HostEvent) (i : Instr), s.pending = .access a :: rest →
    decode s.params (.access a) = .ok i → step s = exec i { s with pending := rest }

/-- A REQ_LAST write runs the request operation that the assembled words decode to. -/
def Obligations.ReqLastStepRunsTheRequestOperation : Prop :=
  ∀ (s : State) (v : Word32) (rest : List HostEvent) (i : Instr),
    s.pending = .access { addr := s.params.base + 0x004, bits := 32, transfer := .write v } :: rest →
    decode s.params (.request (s.asm ++ [v])) = .ok i → step s = exec i { s with pending := rest }

/-- R57 and R99: an access is performed exactly where it is a 32-bit access at an aligned offset of the window, and refused by a
name of its own everywhere else. -/
def Obligations.ExactlyTheAdmittedAccessesAreTaken : Prop :=
  ∀ (s : State) (a : BusAccess) (rest : List HostEvent), s.pending = .access a :: rest →
    ((∃ off : Nat, off < 0x1000 ∧ off % 4 = 0 ∧ a.addr = s.params.base + off ∧ a.bits = 32) → ∃ t, step s = .next t) ∧
    ((¬ ∃ off : Nat, off < 0x1000 ∧ off % 4 = 0 ∧ a.addr = s.params.base + off ∧ a.bits = 32) →
      step s = .refused .notWord32Access ∨ step s = .refused .outsideWindow ∨ step s = .refused .misalignedAccess)

/-- The order of events (R56): a step removes the first event from the host program and only it, and keeps what the host has read,
with at most one value added at its end. What the event does is said by StepRunsTheDecodedInstruction, ResetClearsTheBlock and
CoincidingResetTakesOneOfTwoOrders. That a reset event leaves the rest of the program and what has been read is the model's
reading of R181, log entry 12. -/
def Obligations.AStepRemovesTheFirstEventOnly : Prop :=
  ∀ (s t : State) (e : HostEvent) (rest : List HostEvent), s.pending = e :: rest → step s = .next t →
    t.pending = rest ∧ (t.observed = s.observed ∨ ∃ w, t.observed = s.observed ++ [w])

/-- R20: the block takes no step of its own (that the model's step then answers the same state is the model's choice, log entry 6). -/
def Obligations.NoEventNoChange : Prop := ∀ s : State, s.pending = [] → step s = .next s

/-- R30 and R186: only the completion of a request and a reset write the response. -/
def Obligations.OnlyCompletionAndResetWriteTheResponse : Prop :=
  ∀ s t : State, step s = .next t → t.rspStatus ≠ s.rspStatus ∨ t.rspData ≠ s.rspData →
    ∃ e rest, s.pending = e :: rest ∧ writesResponse s.params e

/-- R58: only writes of REQ, REQ_LAST and ABORT, and a reset, change the assembly buffer. -/
def Obligations.OnlyItsPortsAndResetChangeTheBuffer : Prop :=
  ∀ s t : State, step s = .next t → t.asm ≠ s.asm → ∃ e rest, s.pending = e :: rest ∧ writesAsm s.params e

/-! ### Reset (70_reset_and_hazards.md) -/

/-- R180, whole: what reset leaves, as a state and as an event, with STAT, CAPS and every RSP_DATA index. -/
def Obligations.ResetClearsTheBlock : Prop :=
  (State.reset.asm = [] ∧ State.reset.rspStatus = 0x00000000 ∧ State.reset.rspData = [] ∧
    statWord State.reset.asm = 0x00000000 ∧ (capsWord State.reset.params).toNat = State.reset.params.maxb) ∧
  (∀ (s : State) (rest : List HostEvent), s.pending = .reset :: rest →
    ∃ t, step s = .next t ∧ t.asm = [] ∧ t.rspStatus = 0x00000000 ∧ t.rspData = [] ∧ statWord t.asm = 0x00000000 ∧
      capsWord t.params = capsWord s.params ∧ ∀ i : BitVec 8, (lenField t.rspStatus).toNat ≤ i.toNat)

/-- R181: an access that a reset coincides with is followed by the reset, or follows it; it is never partly applied. Which of the
two is a free choice, of which nothing is said. That the reset leaves the host side is log entry 12. -/
def Obligations.CoincidingResetTakesOneOfTwoOrders : Prop :=
  ∀ (s u : State) (a : BusAccess) (i : Instr) (rest : List HostEvent), s.pending = .accessDuringReset a :: rest →
    u = { s with pending := rest, draws := s.draws + 1 } → decode s.params (.access a) = .ok i →
      step s = exec i { u with asm := [], rspStatus := 0x00000000, rspData := [] } ∨
      ∃ t, exec i u = .next t ∧ step s = .next { t with asm := [], rspStatus := 0x00000000, rspData := [] }

/-! ### Runs -/

/-- The request protocol (30_encoding.md R70, R80; 20_memory.md R62; R187): issuing the words of a request by its writes executes,
after as many steps, the request made of the words already in `asm` and these, whatever the state; with `asm` empty that is the
request issued, otherwise the old words are its head. -/
def Obligations.IssuingTheWordsExecutesTheRequest : Prop :=
  ∀ (s : State) (req : List Word32) (rest : List HostEvent) (h : Word32) (ws : List Word32), req ≠ [] →
    s.pending = accessEvents (issueWords s.params req) ++ rest → s.asm ++ req = h :: ws →
    (∀ op, decodeHeader h = some op →
      Host.Core.run core req.length s = exec (Instr.ofOp op ws) { s with pending := rest }) ∧
    (decodeHeader h = none →
      ∃ t, Host.Core.run core req.length s = .next t ∧
        Responds { s with pending := rest } t (errorStatus (opField h) .opcode) [])

/-- R187 and R183: a host that writes ABORT first has its request executed as issued, whatever `asm` held. -/
def Obligations.AbortThenIssueExecutesTheRequest : Prop :=
  ∀ (s : State) (i : Instr) (req : List Word32) (v : Word32) (rest : List HostEvent), encode s.params i = .request req →
    s.pending = accessEvents (memWrite s.params 0x014 v :: issue s.params i) ++ rest →
    Host.Core.run core (req.length + 1) s = exec i { s with asm := [], pending := rest }

/-- R62, R184: the read right after a REQ_LAST write returns the completed status. -/
def Obligations.NextReadSeesTheResponse : Prop :=
  ∀ (s t : State) (v : Word32) (rest : List HostEvent),
    s.pending = accessEvents [memWrite s.params 0x004 v, memRead s.params 0x00C] ++ rest →
    exec (.wrReqLast v) { s with pending := rest } = .next t →
    Host.Core.run core 2 s = .next { t with observed := t.observed ++ [t.rspStatus] }

/-- R99: a host program of admitted accesses is never refused. That the run may have more steps than events, where R193 ends it,
rests on the idle step, the model's choice of log entry 6; that it goes on with the rest of the program after a reset event rests
on log entry 12. -/
def Obligations.AdmittedProgramsNeverStop : Prop :=
  ∀ (n : Nat) (s : State), AdmittedProgram s → ∃ t, Host.Core.run core n s = .next t ∧ AdmittedProgram t

/-! ### The invariant -/

/-- The reset state meets the invariant. -/
def Obligations.ResetMeetsTheInvariant : Prop := Inv State.reset

/-- Every step keeps the invariant: the response is always none, an error response, a CRC, or a whole frame with its right CRC. -/
def Obligations.EveryStepKeepsTheInvariant : Prop := ∀ s t : State, Inv s → step s = .next t → Inv t

/-- What the invariant says of the registers (R25, R30, R151): `rsp_data` has LEN words, [7:4] is zero, the reserved codes never
occur, an error has LEN 0, and OPECHO 0 with ECODE 0 means that no request has completed. -/
def Obligations.InvariantFixesTheStatusFields : Prop :=
  ∀ s : State, Inv s →
    s.rspData.length = (lenField s.rspStatus).toNat ∧ s.rspData.length ≤ s.params.frameMax ∧ reservedField s.rspStatus = 0 ∧
    (ecodeField s.rspStatus).toNat ≤ 4 ∧ (ecodeField s.rspStatus ≠ 0 → s.rspData = []) ∧
    (opechoField s.rspStatus = 0 → ecodeField s.rspStatus = 0 → s.rspStatus = 0 ∧ s.rspData = [])

/-! ### Encoding -/

/-- Decoding the encoding of any well-formed instruction, of all fifteen kinds, with every operand, gives it back. -/
def Obligations.DecodeOfEncodeIsTheInstruction : Prop :=
  ∀ (P : Params) (i : Instr), i.wf P.maxb = true → decode P (encode P i) = .ok i

/-- Nothing is dropped the other way round: what decodes to an instruction is exactly that instruction's encoding. -/
def Obligations.EncodeOfDecodeIsTheEncoding : Prop :=
  ∀ (P : Params) (e : Encoded) (i : Instr), decode P e = .ok i → encode P i = e

/-- Words written out from the spec's encodings, some of each family (R80, R27; at BASE 0x40000000, the model's choice, log
entry 3). -/
def Obligations.WrittenOutWordsDecode : Prop :=
  decode Params.default (.request [0x00000001, 0x01]) = .ok (.crc [0x01]) ∧
  decode Params.default (.request [0x00000010, 0x01, 0x06, 0x0000, 0x0001]) = .ok (.frameWrite [0x01, 0x06, 0x0000, 0x0001]) ∧
  decode Params.default (.request [0x00000013, 0x01, 0x11]) = .ok (.frameRaw [0x01, 0x11]) ∧
  decode Params.default (.access { addr := 0x40000000, bits := 32, transfer := .write 0x10 }) = .ok (.wrReq 0x10) ∧
  decode Params.default (.access { addr := 0x400007FC, bits := 32, transfer := .read }) = .ok (.rdRspData 255)
end

