-- ==== Sys2Proof/Laws/State.lean ====
section
/-! SUPPORT. The fields of every named operation's result, one lemma each, so that no proof unfolds a record update. -/

namespace Sys2Proof.Machine

variable (s : State) (v w : Word32) (o : Byte) (e : ErrCode) (data : List Word32)

@[simp] theorem pushWord_asm : (s.pushWord v).asm = s.asm ++ [v] := rfl
@[simp] theorem pushWord_rspStatus : (s.pushWord v).rspStatus = s.rspStatus := rfl
@[simp] theorem pushWord_rspData : (s.pushWord v).rspData = s.rspData := rfl
@[simp] theorem pushWord_params : (s.pushWord v).params = s.params := rfl
@[simp] theorem pushWord_pending : (s.pushWord v).pending = s.pending := rfl
@[simp] theorem pushWord_observed : (s.pushWord v).observed = s.observed := rfl
@[simp] theorem pushWord_draws : (s.pushWord v).draws = s.draws := rfl

@[simp] theorem discardRequest_asm : s.discardRequest.asm = [] := rfl
@[simp] theorem discardRequest_rspStatus : s.discardRequest.rspStatus = s.rspStatus := rfl
@[simp] theorem discardRequest_rspData : s.discardRequest.rspData = s.rspData := rfl
@[simp] theorem discardRequest_params : s.discardRequest.params = s.params := rfl
@[simp] theorem discardRequest_pending : s.discardRequest.pending = s.pending := rfl
@[simp] theorem discardRequest_observed : s.discardRequest.observed = s.observed := rfl
@[simp] theorem discardRequest_draws : s.discardRequest.draws = s.draws := rfl

@[simp] theorem complete_asm : (s.complete o data).asm = [] := rfl
@[simp] theorem complete_rspStatus : (s.complete o data).rspStatus = packStatus data.length o 0 := rfl
@[simp] theorem complete_rspData : (s.complete o data).rspData = data := rfl
@[simp] theorem complete_params : (s.complete o data).params = s.params := rfl
@[simp] theorem complete_pending : (s.complete o data).pending = s.pending := rfl
@[simp] theorem complete_observed : (s.complete o data).observed = s.observed := rfl
@[simp] theorem complete_draws : (s.complete o data).draws = s.draws := rfl

@[simp] theorem raiseError_asm : (s.raiseError o e).asm = [] := rfl
@[simp] theorem raiseError_rspStatus : (s.raiseError o e).rspStatus = packStatus 0 o (errorCode e) := rfl
@[simp] theorem raiseError_rspData : (s.raiseError o e).rspData = [] := rfl
@[simp] theorem raiseError_params : (s.raiseError o e).params = s.params := rfl
@[simp] theorem raiseError_pending : (s.raiseError o e).pending = s.pending := rfl
@[simp] theorem raiseError_observed : (s.raiseError o e).observed = s.observed := rfl
@[simp] theorem raiseError_draws : (s.raiseError o e).draws = s.draws := rfl

@[simp] theorem returnRead_asm : (s.returnRead w).asm = s.asm := rfl
@[simp] theorem returnRead_rspStatus : (s.returnRead w).rspStatus = s.rspStatus := rfl
@[simp] theorem returnRead_rspData : (s.returnRead w).rspData = s.rspData := rfl
@[simp] theorem returnRead_params : (s.returnRead w).params = s.params := rfl
@[simp] theorem returnRead_pending : (s.returnRead w).pending = s.pending := rfl
@[simp] theorem returnRead_observed : (s.returnRead w).observed = s.observed ++ [w] := rfl
@[simp] theorem returnRead_draws : (s.returnRead w).draws = s.draws := rfl

@[simp] theorem returnDraw_asm : s.returnDraw.asm = s.asm := rfl
@[simp] theorem returnDraw_rspStatus : s.returnDraw.rspStatus = s.rspStatus := rfl
@[simp] theorem returnDraw_rspData : s.returnDraw.rspData = s.rspData := rfl
@[simp] theorem returnDraw_params : s.returnDraw.params = s.params := rfl
@[simp] theorem returnDraw_pending : s.returnDraw.pending = s.pending := rfl
@[simp] theorem returnDraw_observed : s.returnDraw.observed = s.observed ++ [Config.draw s.draws] := rfl
@[simp] theorem returnDraw_draws : s.returnDraw.draws = s.draws + 1 := rfl

@[simp] theorem resetBlock_asm : s.resetBlock.asm = [] := rfl
@[simp] theorem resetBlock_rspStatus : s.resetBlock.rspStatus = 0 := rfl
@[simp] theorem resetBlock_rspData : s.resetBlock.rspData = [] := rfl
@[simp] theorem resetBlock_params : s.resetBlock.params = s.params := rfl
@[simp] theorem resetBlock_pending : s.resetBlock.pending = s.pending := rfl
@[simp] theorem resetBlock_observed : s.resetBlock.observed = s.observed := rfl
@[simp] theorem resetBlock_draws : s.resetBlock.draws = s.draws := rfl

/-- Drawing the order of a coinciding reset changes the draw counter alone. -/
@[simp] theorem drawResetOrder_snd : s.drawResetOrder.2 = { s with draws := s.draws + 1 } := rfl

/-- Taking the next event: the first of `pending`, in the state without it. -/
theorem fetch_cons {e : HostEvent} {rest : List HostEvent} (h : s.pending = e :: rest) :
    s.fetch = some (e, { s with pending := rest }) := by simp [State.fetch, h]

theorem fetch_nil (h : s.pending = []) : s.fetch = none := by simp [State.fetch, h]

end Sys2Proof.Machine
end

