-- ==== Sys2Proof/Laws/Bits.lean ====
section
/-! SUPPORT. Status words and byte orders: the fields of a packed status word, and the same words in arithmetic on numbers. -/

namespace Sys2Proof.Machine

/-- The number a status word is. -/
theorem packStatus_toNat (n : Nat) (o : Byte) (e : BitVec 4) :
    (packStatus n o e).toNat = n % 0x10000 * 0x10000 + o.toNat * 0x100 + e.toNat := by
  have ho := o.isLt
  have he := e.isLt
  have h1 : (BitVec.ofNat 16 n ++ o).toNat = n % 0x10000 * 0x100 + o.toNat := by
    rw [BitVec.toNat_append, ← Nat.shiftLeft_add_eq_or_of_lt ho, Nat.shiftLeft_eq, BitVec.toNat_ofNat]
  have h2 : (BitVec.ofNat 16 n ++ o ++ (0 : BitVec 4)).toNat = (n % 0x10000 * 0x100 + o.toNat) * 0x10 := by
    rw [BitVec.toNat_append, ← Nat.shiftLeft_add_eq_or_of_lt (BitVec.isLt _), Nat.shiftLeft_eq, h1]
    rfl
  have h3 : (BitVec.ofNat 16 n ++ o ++ (0 : BitVec 4) ++ e).toNat =
      (n % 0x10000 * 0x100 + o.toNat) * 0x10 * 0x10 + e.toNat := by
    rw [BitVec.toNat_append, ← Nat.shiftLeft_add_eq_or_of_lt he, Nat.shiftLeft_eq, h2]
  have h4 : (packStatus n o e).toNat = (BitVec.ofNat 16 n ++ o ++ (0 : BitVec 4) ++ e).toNat := rfl
  omega

@[simp] theorem ecodeField_packStatus (n : Nat) (o : Byte) (e : BitVec 4) : ecodeField (packStatus n o e) = e := by
  apply BitVec.eq_of_toNat_eq
  have := e.isLt
  rw [ecodeField, BitVec.extractLsb'_toNat, packStatus_toNat, Nat.shiftRight_eq_div_pow]
  omega

@[simp] theorem reservedField_packStatus (n : Nat) (o : Byte) (e : BitVec 4) : reservedField (packStatus n o e) = 0 := by
  apply BitVec.eq_of_toNat_eq
  have := e.isLt
  rw [reservedField, BitVec.extractLsb'_toNat, packStatus_toNat, Nat.shiftRight_eq_div_pow]
  change _ = 0
  omega

@[simp] theorem opechoField_packStatus (n : Nat) (o : Byte) (e : BitVec 4) : opechoField (packStatus n o e) = o := by
  apply BitVec.eq_of_toNat_eq
  have := e.isLt
  have := o.isLt
  rw [opechoField, BitVec.extractLsb'_toNat, packStatus_toNat, Nat.shiftRight_eq_div_pow]
  omega

@[simp] theorem lenField_packStatus (n : Nat) (o : Byte) (e : BitVec 4) :
    lenField (packStatus n o e) = BitVec.ofNat 16 n := by
  apply BitVec.eq_of_toNat_eq
  have := e.isLt
  have := o.isLt
  rw [lenField, BitVec.extractLsb'_toNat, packStatus_toNat, Nat.shiftRight_eq_div_pow, BitVec.toNat_ofNat]
  omega

/-- A status word in the arithmetic of 42_frame.md R127. -/
theorem packStatus_eq_ofNat (n : Nat) (o : Byte) (e : BitVec 4) :
    packStatus n o e = BitVec.ofNat 32 (n * 0x10000 + o.toNat * 0x100 + e.toNat) := by
  apply BitVec.eq_of_toNat_eq
  have ho := o.isLt
  have he := e.isLt
  rw [packStatus_toNat, BitVec.toNat_ofNat]
  omega

/-- The high byte of a 16-bit value. -/
theorem highByte_eq (v : U16) : v.extractLsb' 8 8 = BitVec.ofNat 8 (v.toNat / 256) := by
  apply BitVec.eq_of_toNat_eq
  simp [BitVec.extractLsb'_toNat, Nat.shiftRight_eq_div_pow]

/-- The low byte of a 16-bit value. -/
theorem lowByte_eq (v : U16) : v.extractLsb' 0 8 = BitVec.ofNat 8 (v.toNat % 256) := by
  apply BitVec.eq_of_toNat_eq
  simp [BitVec.extractLsb'_toNat]

theorem frameWords_eq_byteWords (bs : List Byte) : frameWords bs = byteWords bs := by
  refine List.map_congr_left fun b _ => ?_
  apply BitVec.eq_of_toNat_eq
  simp

theorem sealFrame_eq_sealedBytes (hp : List Byte) : sealFrame hp = sealedBytes hp := by
  simp [sealFrame, sealedBytes, le16, highByte_eq, lowByte_eq]

@[simp] theorem byteWords_length (bs : List Byte) : (byteWords bs).length = bs.length := by simp [byteWords]

@[simp] theorem frameWords_length (bs : List Byte) : (frameWords bs).length = bs.length := by simp [frameWords]

@[simp] theorem sealFrame_length (hp : List Byte) : (sealFrame hp).length = hp.length + 2 := by simp [sealFrame, le16]

/-- The bytes a response's words hold are the frame's. -/
@[simp] theorem map_byteOf_frameWords (bs : List Byte) : (frameWords bs).map byteOf = bs := by
  simp only [frameWords, List.map_map]
  refine (List.map_congr_left fun b _ => ?_).trans (List.map_id bs)
  simp [byteOf]

end Sys2Proof.Machine
end

