-- ==== Sys2Proof/Laws/Decode.lean ====
section
/-! SUPPORT. What the decoder answers: the opcode map both ways, an aligned access of the window, and the checks of a legal
header's request. -/

namespace Sys2Proof

open Machine

@[simp] theorem decodeOp_code (op : Op) : decodeOp op.code = some op := by cases op <;> rfl

/-- The opcode map names each operation by one value. -/
theorem decodeOp_eq_some {b : Byte} {op : Op} : decodeOp b = some op ↔ b = op.code := by
  constructor
  · intro h
    unfold decodeOp at h
    split_ifs at h with h1 h2 h3 h4 h5 h6 <;> cases h <;> assumption
  · rintro rfl
    exact decodeOp_code op

@[simp] theorem opField_header (op : Op) : opField op.header = op.code := by cases op <;> rfl

@[simp] theorem decodeHeader_header (op : Op) : decodeHeader op.header = some op := by cases op <;> rfl

/-- A header word is its two fields (30_encoding.md R71). -/
theorem header_toNat (h : Word32) : h.toNat = (rsvdField h).toNat * 0x100 + (opField h).toNat := by
  have := h.isLt
  simp only [rsvdField, opField, BitVec.extractLsb'_toNat, Nat.shiftRight_eq_div_pow]
  omega

theorem header_op_toNat (op : Op) : op.header.toNat = op.code.toNat := by cases op <;> rfl

/-- A legal header is the operation's header word, bit for bit: no other word selects it (R71, R76). -/
theorem decodeHeader_eq_some {h : Word32} {op : Op} : decodeHeader h = some op ↔ h = op.header := by
  constructor
  · intro hd
    unfold decodeHeader at hd
    split_ifs at hd with hr
    have hop := decodeOp_eq_some.1 hd
    apply BitVec.eq_of_toNat_eq
    rw [header_toNat h, hr, hop, header_op_toNat]
    simp
  · rintro rfl
    exact decodeHeader_header op

/-- An aligned 32-bit access of the window decodes by its offset alone (20_memory.md R57, 40_register_access.md R99). -/
theorem decodeAccess_of_offset (P : Params) (off : Offset) (t : Transfer) (ha : off.toNat % 4 = 0) :
    decodeAccess P { addr := P.base + off.toNat, bits := 32, transfer := t } = .ok (decodeOffset off t) := by
  have h1 : off.toNat < 4096 := off.isLt
  have h2 : P.base + off.toNat - P.base = off.toNat := by omega
  simp [decodeAccess, h1, h2, ha]

/-- An access that decodes is an aligned 32-bit access of the window, at the offset it decodes by. -/
theorem decodeAccess_eq_ok {P : Params} {a : BusAccess} {i : Instr} (h : decodeAccess P a = .ok i) :
    ∃ off : Offset, off.toNat % 4 = 0 ∧ a = { addr := P.base + off.toNat, bits := 32, transfer := a.transfer } ∧
      i = decodeOffset off a.transfer := by
  obtain ⟨addr, bits, t⟩ := a
  unfold decodeAccess at h
  split_ifs at h with h1 h2 h3
  have hlt : addr - P.base < 2 ^ 12 := by simp only at h2 ⊢; omega
  have hoff : (BitVec.ofNat 12 (addr - P.base)).toNat = addr - P.base := by
    rw [BitVec.toNat_ofNat, Nat.mod_eq_of_lt hlt]
  refine ⟨BitVec.ofNat 12 (addr - P.base), ?_, ?_, ?_⟩
  · rw [hoff]
    simpa using h3
  · rw [hoff]
    simp only [not_or, not_lt, not_le] at h2
    have : P.base + (addr - P.base) = addr := by omega
    simp only [this, BusAccess.mk.injEq, and_true, true_and]
    simpa using h1
  · injection h with h
    exact h.symm

/-- The checks that follow the header's (30_encoding.md R75). -/
theorem requestDecode_header (maxb : Nat) (op : Op) (ws : List Word32) :
    requestDecode maxb op.header ws =
      if maxb < ws.length then .error .tooLong
      else match shape op ws.length with
        | none => .error .shape
        | some widths =>
          if (List.zipWith fits ws widths).all id then .ok (op, List.zipWith argOf ws widths) else .error .range := by
  cases op <;> rfl

/-- A request decodes to arguments only where its header is its operation's (R75). -/
theorem requestDecode_eq_ok {maxb : Nat} {h : Word32} {ws args : List Word32} {op : Op}
    (hd : requestDecode maxb h ws = .ok (op, args)) :
    h = op.header ∧ ws.length ≤ maxb ∧ ∃ widths, shape op ws.length = some widths ∧
      (List.zipWith fits ws widths).all id = true ∧ args = List.zipWith argOf ws widths := by
  unfold requestDecode at hd
  split at hd
  · cases hd
  · rename_i op' hop
    split_ifs at hd with hm
    split at hd
    · cases hd
    · rename_i widths hs
      split_ifs at hd with hf
      simp only [Except.ok.injEq, Prod.mk.injEq] at hd
      obtain ⟨rfl, rfl⟩ := hd
      exact ⟨decodeHeader_eq_some.1 hop, by omega, widths, hs, hf, rfl⟩

/-- `shape` gives one width per operand. -/
theorem shape_length {op : Op} {n : Nat} {widths : List Nat} (h : shape op n = some widths) : widths.length = n := by
  cases op <;> simp only [shape] at h <;> (try split_ifs at h) <;> simp_all <;> subst h <;> simp

end Sys2Proof
end

