-- ==== Sys2Proof/Laws/Request.lean ====
section
/-! SUPPORT. What executing a request can do, said once: it completes or it raises one error, and touches nothing but the
record of 10_state.md R23. -/

namespace Sys2Proof.Machine

/-- A request whose words decode completes with the operation's data words. -/
theorem runRequest_ok {h : Word32} {ws args : List Word32} {op : Op} {s : State}
    (hd : requestDecode s.params.maxb h ws = .ok (op, args)) :
    runRequest h ws s = s.complete (opField h) (operation op args) := by simp [runRequest, hd]

/-- A request whose words do not decode raises the error of the first failing check. -/
theorem runRequest_error {h : Word32} {ws : List Word32} {e : ErrCode} {s : State}
    (hd : requestDecode s.params.maxb h ws = .error e) : runRequest h ws s = s.raiseError (opField h) e := by
  simp [runRequest, hd]

/-- The two things a request can do (R91). -/
theorem runRequest_cases (h : Word32) (ws : List Word32) (s : State) :
    (∃ op args, requestDecode s.params.maxb h ws = .ok (op, args) ∧
      runRequest h ws s = s.complete (opField h) (operation op args)) ∨
    (∃ e, requestDecode s.params.maxb h ws = .error e ∧ runRequest h ws s = s.raiseError (opField h) e) := by
  cases hd : requestDecode s.params.maxb h ws with
  | error e => exact .inr ⟨e, rfl, runRequest_error hd⟩
  | ok p => exact .inl ⟨p.1, p.2, rfl, runRequest_ok hd⟩

@[simp] theorem runRequest_asm (h : Word32) (ws : List Word32) (s : State) : (runRequest h ws s).asm = [] := by
  obtain ⟨op, args, -, hr⟩ | ⟨e, -, hr⟩ := runRequest_cases h ws s <;> rw [hr] <;> rfl

@[simp] theorem runRequest_params (h : Word32) (ws : List Word32) (s : State) : (runRequest h ws s).params = s.params := by
  obtain ⟨op, args, -, hr⟩ | ⟨e, -, hr⟩ := runRequest_cases h ws s <;> rw [hr] <;> rfl

@[simp] theorem runRequest_pending (h : Word32) (ws : List Word32) (s : State) :
    (runRequest h ws s).pending = s.pending := by
  obtain ⟨op, args, -, hr⟩ | ⟨e, -, hr⟩ := runRequest_cases h ws s <;> rw [hr] <;> rfl

@[simp] theorem runRequest_observed (h : Word32) (ws : List Word32) (s : State) :
    (runRequest h ws s).observed = s.observed := by
  obtain ⟨op, args, -, hr⟩ | ⟨e, -, hr⟩ := runRequest_cases h ws s <;> rw [hr] <;> rfl

@[simp] theorem runRequest_draws (h : Word32) (ws : List Word32) (s : State) : (runRequest h ws s).draws = s.draws := by
  obtain ⟨op, args, -, hr⟩ | ⟨e, -, hr⟩ := runRequest_cases h ws s <;> rw [hr] <;> rfl

/-- A request instruction runs the request of its header and its operand words. -/
@[simp] theorem exec_ofOp (op : Op) (ws : List Word32) (s : State) :
    exec (Instr.ofOp op ws) s = .next (runRequest op.header ws s) := by cases op <;> rfl

/-- A REQ_LAST write runs the request `asm ++ [v]` (R91). -/
theorem exec_wrReqLast {s : State} {v h : Word32} {ws : List Word32} (hw : s.asm ++ [v] = h :: ws) :
    exec (.wrReqLast v) s = .next (runRequest h ws s) := by
  change execWrReqLast v s = _
  unfold execWrReqLast
  cases ha : s.asm with
  | nil =>
    rw [ha] at hw
    obtain ⟨rfl, rfl⟩ : v = h ∧ [] = ws := by simpa using hw
    rfl
  | cons x xs =>
    rw [ha] at hw
    obtain ⟨rfl, rfl⟩ : x = h ∧ xs ++ [v] = ws := by simpa using hw
    rfl

/-- Every request has its header: `asm ++ [v]` is never empty (30_encoding.md R70). -/
theorem request_nonempty (asm : List Word32) (v : Word32) : ∃ h ws, asm ++ [v] = h :: ws := by
  cases asm with
  | nil => exact ⟨v, [], rfl⟩
  | cons h t => exact ⟨h, t ++ [v], rfl⟩

end Sys2Proof.Machine
end

