-- ==== Sys2Proof/Laws/Step.lean ====
section
/-! SUPPORT. What an instruction and a step can do, said once. -/

namespace Sys2Proof.Machine

/-- Every instruction completes: the block has no state in which one stops (60_exceptions.md R150, R157). -/
theorem exec_completes (i : Instr) (s : State) : ∃ t, exec i s = .next t := by
  cases i with
  | wrReqLast v =>
    obtain ⟨h, ws, hw⟩ := request_nonempty s.asm v
    exact ⟨_, exec_wrReqLast hw⟩
  | rdRspData idx =>
    change ∃ t, execRdRspData idx s = .next t
    unfold execRdRspData
    cases s.rspWord idx.toNat with
    | none => exact ⟨_, rfl⟩
    | some w => exact ⟨_, rfl⟩
  | _ => exact ⟨_, rfl⟩

/-- What `rd RSP_DATA[i]` can do (40_register_access.md R97). -/
theorem exec_rdRspData_cases (idx : BitVec 8) (s : State) :
    (∃ w, s.rspWord idx.toNat = some w ∧ exec (.rdRspData idx) s = .next (s.returnRead w)) ∨
    (s.rspWord idx.toNat = none ∧ exec (.rdRspData idx) s = .next s.returnDraw) := by
  change (∃ w, _ ∧ execRdRspData idx s = _) ∨ (_ ∧ execRdRspData idx s = _)
  unfold execRdRspData
  cases hw : s.rspWord idx.toNat with
  | none => exact .inr ⟨rfl, rfl⟩
  | some w => exact .inl ⟨w, rfl, rfl⟩

/-- The five things an instruction can do to the state. -/
theorem exec_cases {i : Instr} {s t : State} (h : exec i s = .next t) :
    (∃ hd ws, t = runRequest hd ws s ∧ ((∃ op, i = Instr.ofOp op ws ∧ hd = op.header) ∨
      ∃ v, i = .wrReqLast v ∧ s.asm ++ [v] = hd :: ws)) ∨
    (∃ v, i = .wrReq v ∧ t = s.pushWord v) ∨
    (∃ v, i = .wrAbort v ∧ t = s.discardRequest) ∨
    ((∃ off v, i = .wrReadOnlyOrReserved off v) ∧ t = s) ∨
    (((∃ w, t = s.returnRead w) ∨ t = s.returnDraw) ∧
      (i = .rdStat ∨ i = .rdRspStatus ∨ i = .rdCaps ∨ (∃ idx, i = .rdRspData idx) ∨ ∃ off, i = .rdWriteOnlyOrReserved off)) := by
  cases i with
  | crc ws => injection h with h; exact .inl ⟨_, ws, h.symm, .inl ⟨.crc, rfl, rfl⟩⟩
  | frameWrite ws => injection h with h; exact .inl ⟨_, ws, h.symm, .inl ⟨.frameWrite, rfl, rfl⟩⟩
  | frameRead ws => injection h with h; exact .inl ⟨_, ws, h.symm, .inl ⟨.frameRead, rfl, rfl⟩⟩
  | frameRaw4 ws => injection h with h; exact .inl ⟨_, ws, h.symm, .inl ⟨.frameRaw4, rfl, rfl⟩⟩
  | frameRaw ws => injection h with h; exact .inl ⟨_, ws, h.symm, .inl ⟨.frameRaw, rfl, rfl⟩⟩
  | frameAuto ws => injection h with h; exact .inl ⟨_, ws, h.symm, .inl ⟨.frameAuto, rfl, rfl⟩⟩
  | wrReq v => injection h with h; exact .inr (.inl ⟨v, rfl, h.symm⟩)
  | wrReqLast v =>
    obtain ⟨hd, ws, hw⟩ := request_nonempty s.asm v
    rw [exec_wrReqLast hw] at h
    injection h with h
    exact .inl ⟨hd, ws, h.symm, .inr ⟨v, rfl, hw⟩⟩
  | wrAbort v => injection h with h; exact .inr (.inr (.inl ⟨v, rfl, h.symm⟩))
  | wrReadOnlyOrReserved off v => injection h with h; exact .inr (.inr (.inr (.inl ⟨⟨off, v, rfl⟩, h.symm⟩)))
  | rdStat => injection h with h; exact .inr (.inr (.inr (.inr ⟨.inl ⟨_, h.symm⟩, .inl rfl⟩)))
  | rdRspStatus => injection h with h; exact .inr (.inr (.inr (.inr ⟨.inl ⟨_, h.symm⟩, .inr (.inl rfl)⟩)))
  | rdCaps => injection h with h; exact .inr (.inr (.inr (.inr ⟨.inl ⟨_, h.symm⟩, .inr (.inr (.inl rfl))⟩)))
  | rdRspData idx =>
    refine .inr (.inr (.inr (.inr ⟨?_, .inr (.inr (.inr (.inl ⟨idx, rfl⟩)))⟩)))
    obtain ⟨w, -, hw⟩ | ⟨-, hw⟩ := exec_rdRspData_cases idx s <;> rw [hw] at h <;> injection h with h
    · exact .inl ⟨w, h.symm⟩
    · exact .inr h.symm
  | rdWriteOnlyOrReserved off =>
    injection h with h; exact .inr (.inr (.inr (.inr ⟨.inl ⟨_, h.symm⟩, .inr (.inr (.inr (.inr ⟨off, rfl⟩)))⟩)))

/-- No instruction touches the configuration or the host's remaining program. -/
theorem exec_params_pending {i : Instr} {s t : State} (h : exec i s = .next t) :
    t.params = s.params ∧ t.pending = s.pending := by
  obtain ⟨hd, ws, rfl, -⟩ | ⟨v, -, rfl⟩ | ⟨v, -, rfl⟩ | ⟨-, rfl⟩ | ⟨⟨w, rfl⟩ | rfl, -⟩ := exec_cases h <;> simp

/-- An instruction returns at most one value to the host. -/
theorem exec_observed {i : Instr} {s t : State} (h : exec i s = .next t) :
    t.observed = s.observed ∨ ∃ w, t.observed = s.observed ++ [w] := by
  obtain ⟨hd, ws, rfl, -⟩ | ⟨v, -, rfl⟩ | ⟨v, -, rfl⟩ | ⟨-, rfl⟩ | ⟨⟨w, rfl⟩ | rfl, -⟩ := exec_cases h <;> simp

/-- An access that decodes is performed by its instruction. -/
theorem performAccess_of_decode {a : BusAccess} {s : State} {i : Instr} (h : decodeAccess s.params a = .ok i) :
    performAccess a s = exec i s := by simp [performAccess, h]

/-- An access that completes decoded to an instruction. -/
theorem performAccess_next {a : BusAccess} {s t : State} (h : performAccess a s = .next t) :
    ∃ i, decodeAccess s.params a = .ok i ∧ exec i s = .next t := by
  unfold performAccess at h
  cases hd : decodeAccess s.params a with
  | error r => rw [hd] at h; cases h
  | ok i => exact ⟨i, rfl, by simpa [hd] using h⟩

/-- A reset after an access that completes. -/
theorem thenReset_next {o : Host.Outcome State Fault Refusal} {t : State} (h : thenReset o = .next t) :
    ∃ m, o = .next m ∧ t = m.resetBlock := by
  cases o with
  | next m => injection h with h; exact ⟨m, rfl, h.symm⟩
  | fault r => cases h
  | refused r => cases h

theorem step_access {s : State} {a : BusAccess} {rest : List HostEvent} (h : s.pending = .access a :: rest) :
    step s = performAccess a { s with pending := rest } := by simp [step, fetch_cons s h]

theorem step_reset {s : State} {rest : List HostEvent} (h : s.pending = .reset :: rest) :
    step s = .next ({ s with pending := rest } : State).resetBlock := by simp [step, fetch_cons s h]

theorem step_accessDuringReset {s : State} {a : BusAccess} {rest : List HostEvent}
    (h : s.pending = .accessDuringReset a :: rest) :
    step s = if Config.resetFirst s.draws
      then performAccess a ({ s with pending := rest, draws := s.draws + 1 } : State).resetBlock
      else thenReset (performAccess a { s with pending := rest, draws := s.draws + 1 }) := by
  cases hr : Config.resetFirst s.draws <;> simp [step, fetch_cons s h, State.drawResetOrder, hr]

/-- The things a step can do. -/
theorem step_cases {s t : State} (h : step s = .next t) :
    (s.pending = [] ∧ t = s) ∨ ∃ e rest, s.pending = e :: rest ∧
      ((∃ a i, e = .access a ∧ decodeAccess s.params a = .ok i ∧ exec i { s with pending := rest } = .next t) ∨
      (e = .reset ∧ t = ({ s with pending := rest } : State).resetBlock) ∨
      (∃ a i, e = .accessDuringReset a ∧ decodeAccess s.params a = .ok i ∧
        (exec i ({ s with pending := rest, draws := s.draws + 1 } : State).resetBlock = .next t ∨
          ∃ m, exec i { s with pending := rest, draws := s.draws + 1 } = .next m ∧ t = m.resetBlock))) := by
  cases hp : s.pending with
  | nil =>
    refine .inl ⟨rfl, ?_⟩
    have : step s = .next s := by simp [step, fetch_nil s hp]
    rw [this] at h
    injection h with h
    exact h.symm
  | cons e rest =>
    refine .inr ⟨e, rest, rfl, ?_⟩
    cases e with
    | access a =>
      rw [step_access hp] at h
      obtain ⟨i, hd, he⟩ := performAccess_next h
      exact .inl ⟨a, i, rfl, hd, he⟩
    | reset =>
      rw [step_reset hp] at h
      injection h with h
      exact .inr (.inl ⟨rfl, h.symm⟩)
    | accessDuringReset a =>
      rw [step_accessDuringReset hp] at h
      refine .inr (.inr ⟨a, ?_⟩)
      split_ifs at h
      · obtain ⟨i, hd, he⟩ := performAccess_next h
        exact ⟨i, rfl, hd, .inl he⟩
      · obtain ⟨m, hm, ht⟩ := thenReset_next h
        obtain ⟨i, hd, he⟩ := performAccess_next hm
        exact ⟨i, rfl, hd, .inr ⟨m, he, ht⟩⟩

end Sys2Proof.Machine
end

