-- ==== Sys2Proof/Laws/Operands.lean ====
section
/-! SUPPORT. Operands: the shapes and widths of 30_encoding.md R73 against the checks of R75, and the bytes an operand word
gives. -/

namespace Sys2Proof.Machine

/-! ### Shapes and widths -/

/-- `shape` turns away exactly the counts R73 does not admit. -/
theorem shape_eq_none_iff (op : Op) (n : Nat) : shape op n = none ↔ ¬ admitsCount op n := by
  cases op <;> simp [shape, admitsCount]
  split_ifs <;> simp_all
  omega

theorem shape_of_admits {op : Op} {n : Nat} (h : admitsCount op n) : ∃ widths, shape op n = some widths := by
  cases hs : shape op n with
  | none => exact absurd h ((shape_eq_none_iff op n).1 hs)
  | some widths => exact ⟨widths, rfl⟩

/-- The widths of `shape` are R73's. -/
theorem shape_getElem? {op : Op} {n : Nat} {widths : List Nat} (h : shape op n = some widths) {k : Nat} (hk : k < n) :
    widths[k]? = some (operandWidth op n k) := by
  have hu : n = 4 → widths = [8, 8, 16, 16] → widths[k]? = some (if k < 2 then 8 else 16) := by
    rintro rfl rfl
    match k, hk with
    | 0, _ => rfl
    | 1, _ => rfl
    | 2, _ => rfl
    | 3, _ => rfl
  have hb : widths = List.replicate n 8 → widths[k]? = some 8 := by
    rintro rfl
    simp [hk]
  cases op <;> simp only [shape] at h <;> (try split_ifs at h) <;> injection h with h <;> simp only [operandWidth]
  · exact hb h.symm
  · exact hu (by assumption) h.symm
  · exact hu (by assumption) h.symm
  · subst_vars
    exact hb rfl
  · exact hb h.symm
  · rw [hu (by assumption) h.symm]
    split_ifs <;> simp_all <;> omega
  · rw [hb h.symm]
    simp_all

/-- The range check of R75 fails exactly where some operand is too wide (60_exceptions.md R152). -/
theorem fits_all_eq_false_iff {op : Op} {ws : List Word32} {widths : List Nat} (h : shape op ws.length = some widths) :
    (List.zipWith fits ws widths).all id = false ↔ ∃ k, operandTooWide op ws k := by
  have hl := shape_length h
  have hget : ∀ k (hk : k < ws.length), widths[k]'(by omega) = operandWidth op ws.length k := by
    intro k hk
    have hw := shape_getElem? h hk
    rw [List.getElem?_eq_getElem (by omega)] at hw
    injection hw
  rw [← Bool.not_eq_true, List.all_eq_true]
  constructor
  · intro hn
    push Not at hn
    obtain ⟨b, hb, hbf⟩ := hn
    obtain ⟨k, hk, rfl⟩ := List.getElem_of_mem hb
    rw [List.length_zipWith] at hk
    have hk1 : k < ws.length := by omega
    refine ⟨k, ws[k], by simp [hk1], ?_⟩
    simp only [List.getElem_zipWith, hget k hk1, fits, id] at hbf
    simpa using hbf
  · rintro ⟨k, w, hk, hw⟩ hall
    obtain ⟨hk1, rfl⟩ := List.getElem?_eq_some_iff.1 hk
    have hf := hall ((List.zipWith fits ws widths)[k]'(by simp; omega)) (List.getElem_mem _)
    simp only [List.getElem_zipWith, fits, id, decide_eq_true_eq] at hf
    rw [hget k hk1] at hf
    omega

/-! ### The checks of a legal header's request, in their order (60_exceptions.md R153) -/

theorem requestDecode_tooLong {op : Op} {ws : List Word32} {m : Nat} (h : m < ws.length) :
    requestDecode m op.header ws = .error .tooLong := by rw [requestDecode_header, if_pos h]

theorem requestDecode_shape {op : Op} {ws : List Word32} {m : Nat} (h : ws.length ≤ m) (hs : ¬ admitsCount op ws.length) :
    requestDecode m op.header ws = .error .shape := by
  rw [requestDecode_header, if_neg (by omega), (shape_eq_none_iff _ _).2 hs]

theorem requestDecode_range {op : Op} {ws : List Word32} {m : Nat} (h : ws.length ≤ m) (hs : admitsCount op ws.length)
    (hk : ∃ k, operandTooWide op ws k) : requestDecode m op.header ws = .error .range := by
  obtain ⟨w, hw⟩ := shape_of_admits hs
  rw [requestDecode_header, if_neg (by omega), hw]
  simp only [(fits_all_eq_false_iff hw).2 hk]
  rfl

theorem requestDecode_args {op : Op} {ws : List Word32} {m : Nat} (h : ws.length ≤ m) (hs : admitsCount op ws.length)
    (hk : ¬ ∃ k, operandTooWide op ws k) :
    ∃ widths, shape op ws.length = some widths ∧
      requestDecode m op.header ws = .ok (op, List.zipWith argOf ws widths) := by
  obtain ⟨w, hw⟩ := shape_of_admits hs
  refine ⟨w, hw, ?_⟩
  have hf : (List.zipWith fits ws w).all id = true := by
    cases hb : (List.zipWith fits ws w).all id with
    | true => rfl
    | false => exact absurd ((fits_all_eq_false_iff hw).1 hb) hk
  rw [requestDecode_header, if_neg (by omega), hw]
  simp only [hf]
  rfl

/-- Where every declared width is 8, the operands fit exactly if all are byte values. -/
theorem not_tooWide_bytes {op : Op} {ws : List Word32} (hw : ∀ k, operandWidth op ws.length k = 8) :
    (¬ ∃ k, operandTooWide op ws k) ↔ ∀ w ∈ ws, w.toNat < 256 := by
  simp only [operandTooWide, hw, not_exists, not_and, not_le]
  constructor
  · intro h w hm
    obtain ⟨k, hk, rfl⟩ := List.getElem_of_mem hm
    exact h k _ (by simp [hk])
  · intro h k w hk
    obtain ⟨hk1, rfl⟩ := List.getElem?_eq_some_iff.1 hk
    exact h _ (List.getElem_mem _)

/-- In the two-field shape the operands fit exactly if the first two are bytes and the others 16-bit values. -/
theorem not_tooWide_u16x2 {op : Op} {a f p q : Word32} (hw : ∀ k, operandWidth op 4 k = if k < 2 then 8 else 16) :
    (¬ ∃ k, operandTooWide op [a, f, p, q] k) ↔
      a.toNat < 256 ∧ f.toNat < 256 ∧ p.toNat < 65536 ∧ q.toNat < 65536 := by
  simp only [operandTooWide, List.length_cons, List.length_nil, Nat.reduceAdd, hw, not_exists, not_and, not_le]
  constructor
  · intro h
    exact ⟨h 0 a rfl, h 1 f rfl, h 2 p rfl, h 3 q rfl⟩
  · rintro ⟨h0, h1, h2, h3⟩ k w hk
    match k with
    | 0 => cases hk; exact h0
    | 1 => cases hk; exact h1
    | 2 => cases hk; exact h2
    | 3 => cases hk; exact h3

/-! ### Bytes of operands -/

/-- A parameter of width 8 is its word's value as a byte (30_encoding.md R74). -/
theorem byteOf_argOf (w : Word32) : byteOf (argOf w 8) = byteVal w.toNat := by
  apply BitVec.eq_of_toNat_eq
  simp [byteOf, argOf]

/-- A parameter of width 16 that fits is serialized high byte first (20_memory.md R52). -/
theorem be16_halfOf_argOf (w : Word32) (h : w.toNat < 65536) :
    be16 (halfOf (argOf w 16)) = [byteVal (w.toNat / 256), byteVal (w.toNat % 256)] := by
  have hv : (halfOf (argOf w 16)).toNat = w.toNat := by
    simp only [halfOf, argOf, BitVec.toNat_setWidth]
    omega
  rw [be16, highByte_eq, lowByte_eq, hv]

/-- Operands of width 8, taken one by one. -/
theorem zipWith_argOf_bytes (ws : List Word32) :
    List.zipWith argOf ws (List.replicate ws.length 8) = ws.map fun w => argOf w 8 := by
  induction ws with
  | nil => rfl
  | cons w ws ih => simp [List.replicate_succ, ih]

/-- The raw layout of a request of byte operands is the operands' bytes in order (42_frame.md R123, R127). -/
theorem layoutBytes_args (ws : List Word32) (h : 2 ≤ ws.length) :
    layoutBytes (addressArg (ws.map fun w => argOf w 8)) (functionArg (ws.map fun w => argOf w 8))
      (((ws.map fun w => argOf w 8).drop 2).map byteOf) = ws.map fun w => byteVal w.toNat := by
  match ws, h with
  | a :: f :: rest, _ => simp [layoutBytes, addressArg, functionArg, arg, byteOf_argOf]

/-! ### Status words of the two responses -/

/-- The error response's status word in plain arithmetic (60_exceptions.md R155). -/
theorem packStatus_error (o : Byte) (e : ErrCode) : packStatus 0 o (errorCode e) = BitVec.ofNat 32 (errorStatus o e) := by
  have hn : 0 * 0x10000 + o.toNat * 0x100 + (errorCode e).toNat = errorStatus o e := by
    rw [Nat.zero_mul, Nat.zero_add]
    cases e <;> rfl
  rw [packStatus_eq_ofNat, hn]

/-- The status word of a request that completed, in plain arithmetic (42_frame.md R127). -/
theorem packStatus_ok (n : Nat) (o : Byte) : packStatus n o 0 = BitVec.ofNat 32 (n * 0x10000 + o.toNat * 0x100) := by
  have hz : (0 : BitVec 4).toNat = 0 := rfl
  rw [packStatus_eq_ofNat, hz, Nat.add_zero]

end Sys2Proof.Machine
end

