-- ==== Sys2Proof/Laws/Run.lean ====
section
/-! SUPPORT. Runs of several steps: one step at a time, and the access that a write or a read of the window is. -/

namespace Sys2Proof.Machine

/-- A run takes its first step and goes on. -/
theorem run_succ (n : Nat) {s t : State} (h : step s = .next t) :
    Host.Core.run core (n + 1) s = Host.Core.run core n t := by
  have h' : core.step s = .next t := h
  simp only [Host.Core.run, h']

/-- The configuration is never changed by a step (10_state.md R23). -/
theorem step_params {s t : State} (h : step s = .next t) : t.params = s.params := by
  obtain ⟨-, rfl⟩ | ⟨e, rest, -, ⟨a, i, -, -, he⟩ | ⟨-, rfl⟩ | ⟨a, i, -, -, he | ⟨m, he, rfl⟩⟩⟩ := step_cases h
  · rfl
  · exact (exec_params_pending he).1
  · rfl
  · exact (exec_params_pending he).1
  · exact (exec_params_pending he).1

/-- The step that performs a write of an aligned offset. -/
theorem step_memWrite {s : State} {off : Offset} {v : Word32} {rest : List HostEvent} (ha : off.toNat % 4 = 0)
    (h : s.pending = .access (memWrite s.params off v) :: rest) :
    step s = exec (decodeOffset off (.write v)) { s with pending := rest } := by
  rw [step_access h]
  exact performAccess_of_decode (decodeAccess_of_offset _ off _ ha)

/-- The step that performs a read of an aligned offset. -/
theorem step_memRead {s : State} {off : Offset} {rest : List HostEvent} (ha : off.toNat % 4 = 0)
    (h : s.pending = .access (memRead s.params off) :: rest) :
    step s = exec (decodeOffset off .read) { s with pending := rest } := by
  rw [step_access h]
  exact performAccess_of_decode (decodeAccess_of_offset _ off _ ha)

/-- The offset of `RSP_DATA[i]` as a number. -/
theorem rspDataOffset_toNat (i : BitVec 8) : (rspDataOffset i).toNat = 0x400 + 4 * i.toNat := by
  have := i.isLt
  rw [rspDataOffset, BitVec.toNat_ofNat]
  omega

/-- A request instruction is an operation with its operand words, and its encoding is their request. -/
theorem encode_request {P : Params} {i : Instr} {req : List Word32} (h : encode P i = .request req) :
    ∃ op ws, i = Instr.ofOp op ws ∧ req = op.header :: ws := by
  cases i <;> simp only [encode] at h <;> (try cases h)
  · exact ⟨.crc, _, rfl, rfl⟩
  · exact ⟨.frameWrite, _, rfl, rfl⟩
  · exact ⟨.frameRead, _, rfl, rfl⟩
  · exact ⟨.frameRaw4, _, rfl, rfl⟩
  · exact ⟨.frameRaw, _, rfl, rfl⟩
  · exact ⟨.frameAuto, _, rfl, rfl⟩

end Sys2Proof.Machine
end

