-- ==== Sys2Proof/Laws/PerInstr.lean ====
section
/-! SUPPORT. The family LegalEncoding: the encoding of a well-formed instruction is one the hardware takes, an access that
20_memory.md R57 admits or a request with a legal header (30_encoding.md R71, R76). -/

namespace Sys2Proof.Laws.LegalEncoding

open Sys2Proof.Machine

/-- What the hardware takes. -/
def Legal (P : Params) : Encoded → Prop
  | .access a => a.admitted P
  | .request req => ∃ h ws op, req = h :: ws ∧ decodeHeader h = some op

/-- The statement, per instruction. -/
def Statement (i : Instr) : Prop := ∀ P : Params, i.wf P.maxb = true → Legal P (encode P i)

/-- A write of an aligned offset is admitted. -/
theorem admitted_memWrite (P : Params) (off : Offset) (v : Word32) (h : off.toNat % 4 = 0) :
    (memWrite P off v).admitted P := by
  have h1 : off.toNat < 4096 := off.isLt
  have h2 : P.base + off.toNat - P.base = off.toNat := by omega
  exact ⟨rfl, by simp [memWrite], by simp [memWrite]; omega, by simp [memWrite, h]⟩

/-- A read of an aligned offset is admitted. -/
theorem admitted_memRead (P : Params) (off : Offset) (h : off.toNat % 4 = 0) : (memRead P off).admitted P := by
  have h1 : off.toNat < 4096 := off.isLt
  exact ⟨rfl, by simp [memRead], by simp [memRead]; omega, by simp [memRead, h]⟩

theorem crc (ws : List Word32) : Statement (.crc ws) := fun _ _ => ⟨_, ws, .crc, rfl, rfl⟩

theorem frameWrite (ws : List Word32) : Statement (.frameWrite ws) := fun _ _ => ⟨_, ws, .frameWrite, rfl, rfl⟩

theorem frameRead (ws : List Word32) : Statement (.frameRead ws) := fun _ _ => ⟨_, ws, .frameRead, rfl, rfl⟩

theorem frameRaw4 (ws : List Word32) : Statement (.frameRaw4 ws) := fun _ _ => ⟨_, ws, .frameRaw4, rfl, rfl⟩

theorem frameRaw (ws : List Word32) : Statement (.frameRaw ws) := fun _ _ => ⟨_, ws, .frameRaw, rfl, rfl⟩

theorem frameAuto (ws : List Word32) : Statement (.frameAuto ws) := fun _ _ => ⟨_, ws, .frameAuto, rfl, rfl⟩

theorem wrReq (v : Word32) : Statement (.wrReq v) := fun P _ => admitted_memWrite P 0x000 v rfl

theorem wrReqLast (v : Word32) : Statement (.wrReqLast v) := fun P _ => admitted_memWrite P 0x004 v rfl

theorem wrAbort (v : Word32) : Statement (.wrAbort v) := fun P _ => admitted_memWrite P 0x014 v rfl

theorem wrReadOnlyOrReserved (off : Offset) (v : Word32) : Statement (.wrReadOnlyOrReserved off v) := fun P h =>
  admitted_memWrite P off v (by simp only [Instr.wf, ignoresWrites, Bool.and_eq_true, decide_eq_true_eq] at h; exact h.1)

theorem rdStat : Statement .rdStat := fun P _ => admitted_memRead P 0x008 rfl

theorem rdRspStatus : Statement .rdRspStatus := fun P _ => admitted_memRead P 0x00C rfl

theorem rdCaps : Statement .rdCaps := fun P _ => admitted_memRead P 0x010 rfl

theorem rdRspData (i : BitVec 8) : Statement (.rdRspData i) := fun P _ =>
  admitted_memRead P (rspDataOffset i) (by rw [rspDataOffset_toNat]; omega)

theorem rdWriteOnlyOrReserved (off : Offset) : Statement (.rdWriteOnlyOrReserved off) := fun P h =>
  admitted_memRead P off (by simp only [Instr.wf, readsZero, Bool.and_eq_true, decide_eq_true_eq] at h; exact h.1)

end Sys2Proof.Laws.LegalEncoding
end

