-- ==== Sys2Proof/Tests/Slice0.lean ====
section
/-! SUPPORT. Tests on fixed values, taken from the spec's encodings and from the vectors of 95_test_vectors.md, and for every
obligation with hypotheses a witness that meets them. -/

namespace Sys2Proof.Tests

open Sys2Proof.Machine

/-- A state with these words assembled, otherwise as after reset. -/
def assembled (asm : List Word32) : State := { State.reset with asm := asm }

/-- The block's response and buffer after an outcome that is a next state. -/
def response : Host.Outcome State Fault Refusal → Option (Word32 × List Word32 × List Word32)
  | .next s => some (s.rspStatus, s.rspData, s.asm)
  | .fault _ => none
  | .refused _ => none

/-- What the host has read after an outcome that is a next state. -/
def readBack : Host.Outcome State Fault Refusal → Option (List Word32)
  | .next s => some s.observed
  | .fault _ => none
  | .refused _ => none

/-- After V-FW-1 of 95_test_vectors.md. -/
def afterFw1 : State :=
  { State.reset with rspStatus := 0x00081000, rspData := [0x01, 0x06, 0x00, 0x00, 0x00, 0x01, 0x48, 0x0A] }

/-- A state whose MAXB is the least one, so that a request longer than MAXB is short. -/
def leastMaxb (asm : List Word32) : State := { State.reset with asm := asm, params := { base := 0x40000000, maxb := 6 } }

/-- A host access at an offset of the window of the default parameters. -/
def at32 (off : Nat) (t : Transfer) : BusAccess := { addr := 0x40000000 + off, bits := 32, transfer := t }

/-! ### WellFormed: each check refuses an ill-formed term (30_encoding.md R73; 40_register_access.md R93, R98) -/

theorem test_wf_crc_byte : (Instr.crc [0x100]).wf 254 = false := by decide
theorem test_wf_crc_count : (Instr.crc [1, 2, 3, 4, 5, 6, 7]).wf 6 = false := by decide
theorem test_wf_write_count : (Instr.frameWrite [0x01, 0x06, 0x00]).wf 254 = false := by decide
theorem test_wf_write_width : (Instr.frameWrite [0x01, 0x06, 0x10000, 0x01]).wf 254 = false := by decide
theorem test_wf_read_width : (Instr.frameRead [0x01, 0x03, 0x0000, 0x10000]).wf 254 = false := by decide
theorem test_wf_raw4_count : (Instr.frameRaw4 [0x01, 0x06, 0x12, 0x34]).wf 254 = false := by decide
theorem test_wf_raw_count : (Instr.frameRaw [0x01]).wf 254 = false := by decide
theorem test_wf_auto_width : (Instr.frameAuto [0x01, 0x06, 0x00, 0x100, 0x00]).wf 254 = false := by decide
theorem test_wf_auto_two_fields : (Instr.frameAuto [0x01, 0x06, 0x0100, 0xABCD]).wf 254 = true := by decide
theorem test_wf_ignored_write_offset : (Instr.wrReadOnlyOrReserved 0x014 0).wf 254 = false := by decide
theorem test_wf_ignored_write_alignment : (Instr.wrReadOnlyOrReserved 0x019 0).wf 254 = false := by decide
theorem test_wf_zero_read_offset : (Instr.rdWriteOnlyOrReserved 0x400).wf 254 = false := by decide

/-! ### Decoding: every constructor from a word or an access written out from the spec -/

theorem test_decode_crc : decode Params.default (.request [0x00000001, 0x31, 0x32]) = .ok (.crc [0x31, 0x32]) := by rfl
theorem test_decode_frameWrite :
    decode Params.default (.request [0x00000010, 0x01, 0x06, 0x0000, 0x0001]) = .ok (.frameWrite [0x01, 0x06, 0x0000, 0x0001]) := by rfl
theorem test_decode_frameRead :
    decode Params.default (.request [0x00000011, 0x01, 0x03, 0x0000, 0x000A]) = .ok (.frameRead [0x01, 0x03, 0x0000, 0x000A]) := by rfl
theorem test_decode_frameRaw4 :
    decode Params.default (.request [0x00000012, 0x01, 0x06, 0xDE, 0xAD, 0xBE, 0xEF]) =
      .ok (.frameRaw4 [0x01, 0x06, 0xDE, 0xAD, 0xBE, 0xEF]) := by rfl
theorem test_decode_frameRaw : decode Params.default (.request [0x00000013, 0x01, 0x11]) = .ok (.frameRaw [0x01, 0x11]) := by rfl
theorem test_decode_frameAuto :
    decode Params.default (.request [0x00000014, 0x01, 0x2B, 0x0E]) = .ok (.frameAuto [0x01, 0x2B, 0x0E]) := by rfl
theorem test_decode_wrReq : decode Params.default (.access (at32 0x000 (.write 0x10))) = .ok (.wrReq 0x10) := by rfl
theorem test_decode_wrReqLast : decode Params.default (.access (at32 0x004 (.write 0x01))) = .ok (.wrReqLast 0x01) := by rfl
theorem test_decode_wrAbort :
    decode Params.default (.access (at32 0x014 (.write 0x12345678))) = .ok (.wrAbort 0x12345678) := by rfl
theorem test_decode_wr_ignored :
    decode Params.default (.access (at32 0x418 (.write 0x00))) = .ok (.wrReadOnlyOrReserved 0x418 0x00) := by rfl
theorem test_decode_rdStat : decode Params.default (.access (at32 0x008 .read)) = .ok .rdStat := by rfl
theorem test_decode_rdRspStatus : decode Params.default (.access (at32 0x00C .read)) = .ok .rdRspStatus := by rfl
theorem test_decode_rdCaps : decode Params.default (.access (at32 0x010 .read)) = .ok .rdCaps := by rfl
theorem test_decode_rdRspData_last : decode Params.default (.access (at32 0x7FC .read)) = .ok (.rdRspData 255) := by rfl
theorem test_decode_rd_zero : decode Params.default (.access (at32 0x3FC .read)) = .ok (.rdWriteOnlyOrReserved 0x3FC) := by rfl
theorem test_decode_rd_zero_top : decode Params.default (.access (at32 0x800 .read)) = .ok (.rdWriteOnlyOrReserved 0x800) := by rfl

/-- V-ILL-1, V-ILL-6: reserved OP values and RSVD bits are rejected, never a neighbour (30_encoding.md R77). -/
theorem test_decode_reserved_op : decode Params.default (.request [0x00000000]) = .error .illegalHeader := by rfl
theorem test_decode_rsvd_bit : decode Params.default (.request [0x80000010, 1, 6, 0, 1]) = .error .illegalHeader := by rfl
/-- V-REG-14, V-REG-15. -/
theorem test_decode_narrow :
    decode Params.default (.access { addr := 0x40000004, bits := 8, transfer := .write 0 }) = .error (.access .notWord32) := by rfl
theorem test_decode_misaligned : decode Params.default (.access (at32 0x402 .read)) = .error (.access .misaligned) := by rfl
theorem test_decode_outside : decode Params.default (.access (at32 0x1000 .read)) = .error (.access .outsideWindow) := by rfl
/-- The opcode map over all 256 OP values: exactly six are legal (R76). -/
theorem test_decodeOp_six : ((List.range 256).filter fun n => (decodeOp (BitVec.ofNat 8 n)).isSome) =
    [0x01, 0x10, 0x11, 0x12, 0x13, 0x14] := by decide +kernel

/-! ### The assembler (30_encoding.md R80, R81) -/

theorem test_issue_crc_empty : issue Params.default (.crc []) = [at32 0x004 (.write 0x00000001)] := by rfl
theorem test_issue_raw : issue Params.default (.frameRaw [0x01, 0x11]) =
    [at32 0x000 (.write 0x13), at32 0x000 (.write 0x01), at32 0x004 (.write 0x11)] := by rfl
theorem test_pseudo_coil_on :
    (Pseudo.writeSingleCoil 0x01 0x0010 true).expand = .frameWrite [0x01, 0x05, 0x0010, 0xFF00] := by rfl
theorem test_pseudo_read_input : (Pseudo.readInputRegisters 0x01 0x08 0x01).expand = .frameRead [0x01, 0x04, 0x08, 0x01] := by rfl

/-! ### The table's words, and a step that runs one first after reset -/

theorem test_table_frameWrite : decodeTableWord 32 0x10 = some (.frameWrite [0, 0, 0, 0]) := by rfl
theorem test_table_wrAbort : decodeTableWord 16 0x014 = some (.wrAbort 0) := by rfl
theorem test_table_rdRspData : decodeTableWord 16 0x400 = some (.rdRspData 0) := by rfl
theorem test_table_reserved : decodeTableWord 32 0x00 = none := by rfl
/-- V-RAW-8: the table's `frame.raw` row with its two least operands, zeros. -/
theorem test_first_step_raw :
    response (step (State.reset.withFetchWord 32 0x13)) = some (0x00041300, [0x00, 0x00, 0x01, 0xB0], []) := by decide +kernel
theorem test_first_step_rdCaps : readBack (step (State.reset.withFetchWord 16 0x010)) = some [0x000000FE] := by decide +kernel

/-! ### The Checksum Engine (95_test_vectors.md 2.1, R110) -/

theorem test_crcStep1_low_bit : crcStep1 0xFFFF = 0xDFFE := by decide
theorem test_crcStep1_logical : crcStep1 0x8000 = 0x4000 := by decide
theorem test_crc_bit_trace : [0, 1, 2, 3, 4, 5, 6, 7, 8].map (fun n => crcSteps n (0xFFFF ^^^ 0x01)) =
    [0xFFFE, 0x7FFF, 0x9FFE, 0x4FFF, 0x87FE, 0x43FF, 0x81FE, 0x40FF, 0x807E] := by decide +kernel
theorem test_crc_check_value :
    computeCrc [0x31, 0x32, 0x33, 0x34, 0x35, 0x36, 0x37, 0x38, 0x39] = 0x4B37 := by decide +kernel
theorem test_crc_reference_bytes : [1, 2, 3, 4, 5, 6].map (fun n => computeCrc (([0x01, 0x06, 0x00, 0x00, 0x00, 0x01] : List Byte).take n)) =
    [0x807E, 0x2280, 0xA023, 0xD9E1, 0x4819, 0x0A48] := by decide +kernel

/-! ### One step of each instruction -/

/-- V-CRC-1, V-CRC-13. -/
theorem test_crc_empty : response (exec (.crc []) afterFw1) = some (0x00010100, [0x0000FFFF], []) := by decide +kernel
theorem test_crc_range : response (exec (.crc [0x100]) afterFw1) = some (0x00000104, [], []) := by decide +kernel
/-- V-FW-2, V-FW-17. -/
theorem test_frameWrite : response (exec (.frameWrite [0x01, 0x06, 0x0000, 0x1234]) State.reset) =
    some (0x00081000, [0x01, 0x06, 0x00, 0x00, 0x12, 0x34, 0x84, 0xBD], []) := by decide +kernel
theorem test_frameWrite_shape_first :
    response (exec (.frameWrite [0x100, 0x06, 0x00]) State.reset) = some (0x00001003, [], []) := by decide +kernel
/-- V-FR-2, V-FR-9. -/
theorem test_frameRead : response (exec (.frameRead [0x11, 0x03, 0x006B, 0x0003]) State.reset) =
    some (0x00081100, [0x11, 0x03, 0x00, 0x6B, 0x00, 0x03, 0x76, 0x87], []) := by decide +kernel
theorem test_frameRead_range :
    response (exec (.frameRead [0x01, 0x03, 0x0000, 0x10000]) State.reset) = some (0x00001104, [], []) := by decide +kernel
/-- V-R4-1, V-R4-6. -/
theorem test_frameRaw4 : response (exec (.frameRaw4 [0x01, 0x06, 0xDE, 0xAD, 0xBE, 0xEF]) State.reset) =
    some (0x00081200, [0x01, 0x06, 0xDE, 0xAD, 0xBE, 0xEF, 0x12, 0x2F], []) := by decide +kernel
theorem test_frameRaw4_shape :
    response (exec (.frameRaw4 [0x01, 0x06, 0x12, 0x34]) State.reset) = some (0x00001203, [], []) := by decide +kernel
/-- V-RAW-5, V-RAW-11. -/
theorem test_frameRaw : response (exec (.frameRaw [0xF7, 0x10, 0x01, 0x02, 0x03]) State.reset) =
    some (0x00071300, [0xF7, 0x10, 0x01, 0x02, 0x03, 0xC5, 0xB4], []) := by decide +kernel
theorem test_frameRaw_shape : response (exec (.frameRaw [0x01]) State.reset) = some (0x00001303, [], []) := by decide +kernel
/-- V-AUTO-2, V-AUTO-6. -/
theorem test_frameAuto_two_fields : response (exec (.frameAuto [0x01, 0x2B, 0x000E, 0x0001]) State.reset) =
    some (0x00081400, [0x01, 0x2B, 0x00, 0x0E, 0x00, 0x01, 0x85, 0xCF], []) := by decide +kernel
theorem test_frameAuto_raw : response (exec (.frameAuto [0x01, 0x2B, 0x0E]) State.reset) =
    some (0x00051400, [0x01, 0x2B, 0x0E, 0xBF, 0x34], []) := by decide +kernel
/-- R90's example. -/
theorem test_wrReq : (response (exec (.wrReq 0x10) State.reset)).map (fun r => (r.2.2, statWord r.2.2)) =
    some ([0x00000010], 0x00010001) := by decide +kernel
/-- V-FW-1 through its last write; V-ILL-7. -/
theorem test_wrReqLast : response (exec (.wrReqLast 0x0001) (assembled [0x10, 0x01, 0x06, 0x0000])) =
    some (0x00081000, [0x01, 0x06, 0x00, 0x00, 0x00, 0x01, 0x48, 0x0A], []) := by decide +kernel
theorem test_wrReqLast_illegal : response (exec (.wrReqLast 0x00000101) afterFw1) = some (0x00000101, [], []) := by
  decide +kernel
/-- V-REG-4. -/
theorem test_wrAbort : response (exec (.wrAbort 0) { afterFw1 with asm := [0x13, 0x01] }) =
    some (0x00081000, afterFw1.rspData, []) := by decide +kernel
/-- V-REG-7. -/
theorem test_wr_ignored : response (exec (.wrReadOnlyOrReserved 0x418 0x00) afterFw1) =
    some (0x00081000, afterFw1.rspData, []) := by decide +kernel
/-- R94's example. -/
theorem test_rdStat : readBack (exec .rdStat (assembled [0x10, 0x01, 0x06])) = some [0x00030001] := by decide +kernel
theorem test_rdRspStatus : readBack (exec .rdRspStatus afterFw1) = some [0x00081000] := by decide +kernel
theorem test_rdCaps : readBack (exec .rdCaps State.reset) = some [0x000000FE] := by decide +kernel
/-- R97's example. -/
theorem test_rdRspData : readBack (exec (.rdRspData 6) afterFw1) = some [0x00000048] := by decide +kernel
/-- P1, step 15: index = LEN is a drawn value. -/
theorem test_rdRspData_draw : exec (.rdRspData 8) afterFw1 = .next afterFw1.returnDraw := by rfl
theorem test_rd_zero : readBack (exec (.rdWriteOnlyOrReserved 0x000) (assembled [0x10])) = some [0x00000000] := by decide +kernel
/-- V-REG-13. -/
theorem test_reset_event : response (step { assembled [0x10, 0x01] with pending := [.reset] }) = some (0, [], []) := by
  decide +kernel

/-! ### Witnesses: concrete values that meet the hypotheses of each obligation, clause by clause -/

/-- The state after V-FW-1 meets the invariant, by its frame. -/
theorem afterFw1_inv : Inv afterFw1 := by
  refine ⟨by decide, .inr (.inr (.inr ⟨.frameWrite, [0x01, 0x06, 0x00, 0x00, 0x00, 0x01, 0x48, 0x0A], by decide, ?_, by decide, by decide,
    fun _ => rfl, by decide +kernel, by decide +kernel⟩))⟩
  change _ = _
  decide +kernel

/-- The state after V-FW-12 (an E_RANGE error). -/
def afterFw12 : State := { State.reset with rspStatus := 0x00001004 }

theorem afterFw12_inv : Inv afterFw12 :=
  ⟨by decide, .inr (.inl ⟨0x10, .range, by decide, rfl, .inr ⟨.frameWrite, rfl, by decide⟩⟩)⟩

/-- The state after V-CRC-1 meets the invariant. -/
theorem afterCrc1_inv : Inv { State.reset with rspStatus := 0x00010100, rspData := [0x0000FFFF] } :=
  ⟨by decide, .inr (.inr (.inl ⟨0xFFFF, rfl, by decide⟩))⟩

theorem witness_WrReqAppendsOneWord :
    (leastMaxb [0x10, 1, 2, 3, 4, 5, 6]).asm ++ [(7 : Word32)] = 0x10 :: [1, 2, 3, 4, 5, 6, 7] ∧
    (leastMaxb [0x10, 1, 2, 3, 4, 5, 6]).params.maxb + 1 < ((leastMaxb [0x10, 1, 2, 3, 4, 5, 6]).asm ++ [(7 : Word32)]).length := by
  decide

theorem witness_WrAbortDiscardsTheRequest : State.reset.asm = [] := rfl

theorem witness_IgnoredWriteChangesNothing : ∀ n ∈ [0x008, 0x00C, 0x010, 0x400, 0x7FC, 0x018, 0x3FC, 0x800, 0xFFC],
    (BitVec.ofNat 12 n : Offset).toNat % 4 = 0 ∧ ignoresWrites (BitVec.ofNat 12 n) = true := by decide

theorem witness_RdCapsReturnsMaxb : State.reset.params.wf ∧ step State.reset = .next State.reset := ⟨by decide, rfl⟩

theorem witness_RdRspDataReturnsStoredOrDrawn :
    (Inv afterFw1 ∧ (7 : BitVec 8).toNat < (lenField afterFw1.rspStatus).toNat) ∧
    (lenField afterFw1.rspStatus).toNat ≤ (8 : BitVec 8).toNat ∧ (Inv afterFw12 ∧ ecodeField afterFw12.rspStatus ≠ 0) :=
  ⟨⟨afterFw1_inv, by decide⟩, by decide, afterFw12_inv, by decide⟩

theorem witness_RdRspDataFromLenOnIsUnspecified : (lenField State.reset.rspStatus).toNat ≤ (0 : BitVec 8).toNat := by decide

theorem witness_EveryDrawIsAtItsOwnCount : (lenField afterFw1.rspStatus).toNat ≤ (255 : BitVec 8).toNat := by decide

theorem witness_ReadOfWriteOnlyOrReservedReturnsZero : ∀ n ∈ [0x000, 0x004, 0x014, 0x018, 0x3FC, 0x800, 0xFFC],
    (BitVec.ofNat 12 n : Offset).toNat % 4 = 0 ∧ readsZero (BitVec.ofNat 12 n) = true := by decide

theorem witness_WrReqLastExecutesTheRequest :
    (State.reset.asm ++ [(1 : Word32)] = 1 :: [] ∧ requestDecode State.reset.params.maxb 1 [] = .ok (.crc, [])) ∧
    (State.reset.asm ++ [(0 : Word32)] = 0 :: [] ∧ requestDecode State.reset.params.maxb 0 [] = .error .opcode) :=
  ⟨⟨rfl, rfl⟩, rfl, rfl⟩

/-- Each header value the statement names, and reserved ones at the edges of the map. -/
theorem witness_IllegalHeaderCompletesWithEOpcode :
    ∀ n ∈ [0x00, 0x01, 0x02, 0x0F, 0x10, 0x11, 0x12, 0x13, 0x14, 0x15, 0xFF, 0x100, 0x101],
      (assembled []).asm ++ [BitVec.ofNat 32 n] = BitVec.ofNat 32 n :: [] ∧ (BitVec.ofNat 32 n : Word32).toNat = n := by decide

theorem witness_FirstFailingCheckDecidesTheCode :
    (∀ op : Op, (0x15 : Word32).toNat ≠ op.code.toNat) ∧ (0x10 : Word32).toNat = Op.frameWrite.code.toNat ∧
    (leastMaxb []).params.maxb < ([1, 2, 3, 4, 5, 6, 7] : List Word32).length ∧
    (([1, 2, 3] : List Word32).length ≤ 254 ∧ ¬ admitsCount .frameWrite ([1, 2, 3] : List Word32).length) ∧
    (admitsCount .frameWrite ([1, 6, 0x10000, 1] : List Word32).length ∧ ∃ k, operandTooWide .frameWrite [1, 6, 0x10000, 1] k) ∧
    (admitsCount .crc ([] : List Word32).length ∧ ¬ ∃ k, operandTooWide .crc [] k) := by
  refine ⟨fun op => by cases op <;> decide, by decide, by decide, ⟨by decide, ?_⟩, ⟨rfl, 2, 0x10000, rfl, by decide⟩, trivial, ?_⟩
  · change ¬ (3 = 4)
    decide
  · rintro ⟨k, w, hk, -⟩
    cases hk

theorem witness_WellFormedRequestsAreTheOnesThatSucceed : (leastMaxb []).params.wf ∧ State.reset.params.wf := by decide

theorem witness_ErrorsArePrecise :
    State.reset.asm ++ [(0 : Word32)] = 0 :: [] ∧ exec (.wrReqLast 0) State.reset = .next (State.reset.raiseError 0 .opcode) ∧
    ecodeField (State.reset.raiseError 0 .opcode).rspStatus ≠ 0 := ⟨rfl, rfl, by decide⟩

/-- Every clause of the six result statements: operands that fit, at the edge of their widths; a count over MAXB; a count not
admitted; an operand one too large; an illegal header with the operation's OP. -/
theorem witness_CrcRequestReturnsTheCrc :
    ((List.replicate 6 (0xFF : Word32)).length ≤ (leastMaxb []).params.maxb ∧ ∀ w ∈ List.replicate 6 (0xFF : Word32), w.toNat ≤ 0xFF) ∧
    (leastMaxb []).params.maxb < (List.replicate 7 (0 : Word32)).length ∧
    (([0x100] : List Word32).length ≤ (leastMaxb []).params.maxb ∧ ∃ w ∈ ([0x100] : List Word32), 0xFF < w.toNat) ∧
    ((assembled [0x101]).asm ++ [(5 : Word32)] = 0x101 :: [5] ∧ (0x101 : Word32).toNat % 0x100 = 0x01 ∧ 0x100 ≤ (0x101 : Word32).toNat) ∧
    (([0x01, 0x11, 0xC0, 0x2C] : List Byte).length ≤ (leastMaxb []).params.maxb ∧ WellSealed [0x01, 0x11, 0xC0, 0x2C]) := by
  refine ⟨⟨by decide, by simp⟩, by decide, ⟨by decide, 0x100, by simp, by decide⟩, ⟨rfl, by decide, by decide⟩, by decide, ?_⟩
  change _ = _
  decide +kernel

theorem witness_TwoFieldFrames :
    (leastMaxb []).params.wf ∧ (0xFF : Word32).toNat ≤ 0xFF ∧ (0xFFFF : Word32).toNat ≤ 0xFFFF ∧
    (leastMaxb []).params.maxb < (List.replicate 7 (0 : Word32)).length ∧
    (([1, 2, 3] : List Word32).length ≤ (leastMaxb []).params.maxb ∧ ([1, 2, 3] : List Word32).length ≠ 4) ∧
    (0xFF < (0x100 : Word32).toNat ∧ 0xFFFF < (0x10000 : Word32).toNat) ∧
    (∀ n ∈ [0x110, 0x111, 0x112, 0x113, 0x114], (assembled []).asm ++ [BitVec.ofNat 32 n] = BitVec.ofNat 32 n :: [] ∧
      (BitVec.ofNat 32 n : Word32).toNat % 0x100 = n - 0x100 ∧ 0x100 ≤ (BitVec.ofNat 32 n : Word32).toNat) := by decide

theorem witness_FrameRaw4BuildsTheFrame :
    (leastMaxb []).params.wf ∧ (∀ w ∈ ([0xFF, 0xFF, 0, 0, 0, 0xFF] : List Word32), w.toNat ≤ 0xFF) ∧
    (([1, 2, 3, 4, 5] : List Word32).length ≤ (leastMaxb []).params.maxb ∧ ([1, 2, 3, 4, 5] : List Word32).length ≠ 6) ∧
    (([1, 2, 3, 4, 5, 0x100] : List Word32).length = 6 ∧ ∃ w ∈ ([1, 2, 3, 4, 5, 0x100] : List Word32), 0xFF < w.toNat) :=
  ⟨by decide, by simp, by decide, rfl, 0x100, by simp, by decide⟩

/-- The shortest and the longest payload, and each error. -/
theorem witness_RawFrames :
    (leastMaxb []).params.wf ∧
    (∀ ws ∈ ([[0, 0xFF], [1, 2, 3, 4, 5, 6]] : List (List Word32)),
      2 ≤ ws.length ∧ ws.length ≠ 4 ∧ ws.length ≤ (leastMaxb []).params.maxb ∧ ∀ w ∈ ws, w.toNat ≤ 0xFF) ∧
    (([1] : List Word32).length ≤ (leastMaxb []).params.maxb ∧ ([1] : List Word32).length < 2) ∧
    (2 ≤ ([1, 0x100] : List Word32).length ∧ ∃ w ∈ ([1, 0x100] : List Word32), 0xFF < w.toNat) :=
  ⟨by decide, by simp [leastMaxb], by decide, by decide, 0x100, by simp, by decide⟩

theorem witness_EveryFrameCarriesItsCrc :
    ∃ t, exec (Instr.ofOp .frameRaw [0x01, 0x11]) State.reset = .next t ∧ ecodeField t.rspStatus = 0 := ⟨_, rfl, by decide +kernel⟩

theorem witness_EveryFrameOperationIsTotalAndSized :
    State.reset.params.wf ∧ (Instr.ofOp .frameAuto [1, 6, 0x0100, 0xABCD]).wf State.reset.params.maxb = true ∧
    (Instr.ofOp .frameAuto [1, 6, 0, 0x100, 0]).wf State.reset.params.maxb = false := by decide

theorem witness_AddressAndFunctionCodeAreNotValidated :
    State.reset.params.wf ∧ (Instr.ofOp .frameRead (0x00 :: 0xFF :: [0, 0])).wf State.reset.params.maxb = true ∧
    (0xFF : Word32).toNat ≤ 0xFF := by decide

theorem witness_NoFrameWithAWrongCrcIsEverShown :
    Inv afterFw1 ∧ opechoField afterFw1.rspStatus ≠ 0x01 ∧ (lenField afterFw1.rspStatus).toNat ≠ 0 :=
  ⟨afterFw1_inv, by decide, by decide⟩

/-- Two different states with the same request coming. -/
theorem witness_ResponseDependsOnTheRequestAlone :
    let i := Instr.frameRaw [0x01, 0x11]
    let s : State := { afterFw1 with pending := accessEvents (issue Params.default i) }
    let t : State := { afterFw12 with pending := accessEvents (issue Params.default i) ++ [.reset] }
    s.params = t.params ∧ encode s.params i = .request [0x13, 0x01, 0x11] ∧ s.asm = [] ∧ t.asm = [] ∧ s ≠ t :=
  ⟨rfl, rfl, rfl, rfl, by decide⟩

theorem witness_RequestFrame :
    (∃ t, exec (Instr.ofOp .crc [1]) State.reset = .next t) ∧ ∃ t, exec (.wrReqLast 0x13) (assembled []) = .next t := ⟨⟨_, rfl⟩, _, rfl⟩

theorem witness_WriteFrame :
    (∃ t, exec (.wrReq 1) State.reset = .next t) ∧ (∃ t, exec (.wrAbort 1) State.reset = .next t) ∧
    ∃ t, exec (.wrReadOnlyOrReserved 0x008 1) State.reset = .next t := ⟨⟨_, rfl⟩, ⟨_, rfl⟩, _, rfl⟩

theorem witness_ReadFrame : Instr.rdRspData 255 = .rdStat ∨ Instr.rdRspData 255 = .rdRspStatus ∨ Instr.rdRspData 255 = .rdCaps ∨
    Instr.rdRspData 255 = .rdRspData 255 ∨ Instr.rdRspData 255 = .rdWriteOnlyOrReserved 0 := by decide

/-- A program of one access, and one of a REQ_LAST write whose request decodes. -/
theorem witness_StepRunsTheDecodedInstruction :
    let s : State := { State.reset with pending := [.access (at32 0x008 .read)] }
    s.pending = .access (at32 0x008 .read) :: [] ∧ decode s.params (.access (at32 0x008 .read)) = .ok .rdStat := ⟨rfl, rfl⟩

theorem witness_ReqLastStepRunsTheRequestOperation :
    let s : State := { assembled [0x13, 0x01] with pending := [.access (at32 0x004 (.write 0x11))] }
    s.pending = .access { addr := s.params.base + 0x004, bits := 32, transfer := .write 0x11 } :: [] ∧
    decode s.params (.request (s.asm ++ [0x11])) = .ok (.frameRaw [0x01, 0x11]) := ⟨rfl, rfl⟩

/-- The lowest and the highest admitted access, and one of each kind that is not. -/
theorem witness_ExactlyTheAdmittedAccessesAreTaken :
    (at32 0x000 .read).admitted Params.default ∧ (at32 0xFFC .read).admitted Params.default ∧
    ¬ (at32 0x1000 .read).admitted Params.default ∧ ¬ (at32 0x402 .read).admitted Params.default ∧
    ¬ ({ addr := 0x3FFFFFFC, bits := 32, transfer := .read } : BusAccess).admitted Params.default ∧
    ¬ ({ addr := 0x40000004, bits := 8, transfer := .write 0 } : BusAccess).admitted Params.default := by decide

theorem witness_AStepRemovesTheFirstEventOnly :
    ∃ t, step { State.reset with pending := [.reset, .access (at32 0x008 .read)] } = .next t := ⟨_, rfl⟩

theorem witness_NoEventNoChange : State.reset.pending = [] := rfl

theorem witness_OnlyCompletionAndResetWriteTheResponse :
    ∃ t, step { State.reset with pending := [.access (at32 0x004 (.write 0x00))] } = .next t ∧ t.rspStatus ≠ 0 :=
  ⟨_, rfl, by decide +kernel⟩

theorem witness_OnlyItsPortsAndResetChangeTheBuffer :
    ∃ t, step { State.reset with pending := [.access (at32 0x000 (.write 0x10))] } = .next t ∧ t.asm ≠ [] :=
  ⟨_, rfl, by decide +kernel⟩

theorem witness_ResetClearsTheBlock :
    ({ afterFw1 with pending := [.reset] } : State).pending = .reset :: [] := rfl

theorem witness_CoincidingResetTakesOneOfTwoOrders :
    let s : State := { afterFw1 with pending := [.accessDuringReset (at32 0x000 (.write 0x10))] }
    s.pending = .accessDuringReset (at32 0x000 (.write 0x10)) :: [] ∧
    decode s.params (.access (at32 0x000 (.write 0x10))) = .ok (.wrReq 0x10) := ⟨rfl, rfl⟩

/-- With words left over in `asm`, their head a legal header and an illegal one; and with nothing assembled, the issued words'
own head an illegal one. -/
theorem witness_IssuingTheWordsExecutesTheRequest :
    let events := accessEvents (issueWords Params.default [0x15, 0x06])
    let legal : State := { assembled [0x13, 0x01] with pending := events }
    let illegal : State := { assembled [0x00000113, 0x01] with pending := events }
    let fresh : State := { State.reset with pending := events }
    (legal.pending = accessEvents (issueWords legal.params [0x15, 0x06]) ++ [] ∧
      legal.asm ++ [0x15, 0x06] = 0x13 :: [0x01, 0x15, 0x06] ∧ decodeHeader 0x13 = some .frameRaw) ∧
    (illegal.pending = accessEvents (issueWords illegal.params [0x15, 0x06]) ++ [] ∧
      illegal.asm ++ [0x15, 0x06] = 0x00000113 :: [0x01, 0x15, 0x06] ∧ decodeHeader 0x00000113 = none) ∧
    (fresh.pending = accessEvents (issueWords fresh.params [0x15, 0x06]) ++ [] ∧
      fresh.asm ++ [0x15, 0x06] = 0x15 :: [0x06] ∧ decodeHeader 0x15 = none) :=
  ⟨⟨rfl, rfl, rfl⟩, ⟨rfl, rfl, rfl⟩, rfl, rfl, rfl⟩

theorem witness_AbortThenIssueExecutesTheRequest :
    let i := Instr.frameRaw [0x01, 0x11]
    let s : State := { assembled [0x13] with pending := accessEvents (memWrite Params.default 0x014 0 :: issue Params.default i) }
    encode s.params i = .request [0x13, 0x01, 0x11] ∧
    s.pending = accessEvents (memWrite s.params 0x014 0 :: issue s.params i) ++ [] := ⟨rfl, rfl⟩

theorem witness_NextReadSeesTheResponse :
    let s : State := { assembled [0x13, 0x01] with
      pending := accessEvents [memWrite Params.default 0x004 0x11, memRead Params.default 0x00C] }
    s.pending = accessEvents [memWrite s.params 0x004 0x11, memRead s.params 0x00C] ++ [] ∧
    ∃ t, exec (.wrReqLast 0x11) { s with pending := [] } = .next t := ⟨rfl, _, rfl⟩

theorem witness_AdmittedProgramsNeverStop :
    AdmittedProgram { State.reset with pending := [.access (at32 0x000 (.write 0x10)), .reset, .accessDuringReset (at32 0xFFC .read)] } := by
  intro e he
  simp only [List.mem_cons, List.not_mem_nil, or_false] at he
  rcases he with rfl | rfl | rfl
  · exact (by decide : (at32 0x000 (.write 0x10)).admitted Params.default)
  · trivial
  · exact (by decide : (at32 0xFFC .read).admitted Params.default)

theorem witness_EveryStepKeepsTheInvariant : Inv afterFw1 ∧ ∃ t, step afterFw1 = .next t := ⟨afterFw1_inv, _, rfl⟩

theorem witness_InvariantFixesTheStatusFields : Inv afterFw12 ∧ ecodeField afterFw12.rspStatus ≠ 0 ∧ Inv (assembled [1]) ∧
    opechoField (assembled [1]).rspStatus = 0 ∧ ecodeField (assembled [1]).rspStatus = 0 :=
  ⟨afterFw12_inv, by decide, ⟨by decide, .inl ⟨rfl, rfl⟩⟩, by decide, by decide⟩

theorem witness_DecodeOfEncodeIsTheInstruction :
    (Instr.crc [0xFF]).wf 254 = true ∧ (Instr.wrReadOnlyOrReserved 0xFFC 1).wf 254 = true ∧
    (Instr.rdWriteOnlyOrReserved 0x3FC).wf 254 = true ∧ (Instr.rdRspData 0).wf 254 = true := by decide

theorem witness_EncodeOfDecodeIsTheEncoding :
    decode Params.default (.access (at32 0x400 .read)) = .ok (.rdRspData 0) ∧ decode Params.default (.request [0x01]) = .ok (.crc []) :=
  ⟨rfl, rfl⟩

end Sys2Proof.Tests
end

/-! ### Reads of RSP_DATA from LEN on -/
section
namespace Sys2Proof.Machine

/-- From LEN on no response word is stored, whatever `rspData` holds (40_register_access.md R97). -/
theorem rspWord_eq_none_of_len_le {s : State} {i : Nat} (h : (lenField s.rspStatus).toNat ≤ i) : s.rspWord i = none :=
  if_neg (Nat.not_lt.mpr h)

/-- From LEN on the read of RSP_DATA is a draw (10_state.md R34). -/
theorem exec_rdRspData_of_len_le {s : State} {i : BitVec 8} (h : (lenField s.rspStatus).toNat ≤ i.toNat) :
    exec (.rdRspData i) s = .next s.returnDraw := by
  change execRdRspData i s = _
  simp only [execRdRspData, rspWord_eq_none_of_len_le h]

/-- Settles O10: from LEN on the read is a draw, which is the state the statement writes out. -/
theorem everyDrawIsAtItsOwnCount : Obligations.EveryDrawIsAtItsOwnCount := fun _ _ h =>
  exec_rdRspData_of_len_le h

end Sys2Proof.Machine
end

/-! ### The response of a request and the invariant -/
section
namespace Sys2Proof.Machine

/-- A sealed frame ends in the CRC of its body (42_frame.md R122). -/
theorem wellSealed_sealFrame (body : List Byte) : WellSealed (sealFrame body) := by
  simp [WellSealed, sealFrame, le16]

@[simp] theorem layoutBytes_length (a f : Byte) (bs : List Byte) : (layoutBytes a f bs).length = bs.length + 2 := by
  simp [layoutBytes]

@[simp] theorem layoutU16x2_length (a f : Byte) (p0 p1 : U16) : (layoutU16x2 a f p0 p1).length = 6 := rfl

/-- `frame.auto` on two parameters is `frame.write` (42_frame.md R129). -/
theorem frameAutoOp_eq_frameWriteOp {args : List Word32} (h : args.length = 4) : frameAutoOp args = frameWriteOp args := by
  simp [frameAutoOp, frameWriteOp, arg, h]

/-- `frame.auto` on any other number of parameters is `frame.raw` (R129). -/
theorem frameAutoOp_eq_frameRawOp {args : List Word32} (h : args.length ≠ 4) : frameAutoOp args = frameRawOp args := by
  have hv : args.length - 2 ≠ 2 := by omega
  simp [frameAutoOp, frameRawOp, hv]

/-- What a frame operation answers on an admitted number of arguments: the words of a sealed body, whose length the operation
and that number fix (42_frame.md R128). -/
theorem operation_eq_frameWords_sealFrame {op : Op} {args : List Word32} (hop : op ≠ .crc)
    (hn : admitsCount op args.length) :
    ∃ body, operation op args = frameWords (sealFrame body) ∧
      body.length = if op = .frameRaw ∨ (op = .frameAuto ∧ args.length ≠ 4) then args.length else 6 := by
  have hraw : 2 ≤ args.length → (layoutBytes (addressArg args) (functionArg args) ((args.drop 2).map byteOf)).length =
      args.length := by
    intro h2
    rw [layoutBytes_length, List.length_map, List.length_drop]
    omega
  cases op with
  | crc => exact absurd rfl hop
  | frameWrite => exact ⟨_, rfl, rfl⟩
  | frameRead => exact ⟨_, rfl, rfl⟩
  | frameRaw4 => exact ⟨_, rfl, rfl⟩
  | frameRaw => exact ⟨_, rfl, by simpa using hraw hn⟩
  | frameAuto =>
    by_cases h4 : args.length = 4
    · exact ⟨_, frameAutoOp_eq_frameWriteOp h4, by simp [h4]⟩
    · exact ⟨_, frameAutoOp_eq_frameRawOp h4, by simpa [h4] using hraw hn⟩

/-- The length of a request that decodes: an admitted one up to MAXB, and as many arguments as operands (30_encoding.md R75). -/
theorem requestDecode_ok_length {maxb : Nat} {h : Word32} {ws args : List Word32} {op : Op}
    (hd : requestDecode maxb h ws = .ok (op, args)) :
    args.length = ws.length ∧ args.length ≤ maxb ∧ admitsCount op args.length := by
  obtain ⟨-, hm, widths, hs, -, rfl⟩ := requestDecode_eq_ok hd
  have hl : (List.zipWith argOf ws widths).length = ws.length := by simp [shape_length hs]
  rw [hl]
  refine ⟨rfl, hm, ?_⟩
  by_contra hn
  rw [(shape_eq_none_iff op ws.length).2 hn] at hs
  cases hs

/-- Which errors a request can raise: every one but E_OPCODE is of a legal header, and E_SHAPE is never of `crc`
(60_exceptions.md R152). -/
theorem requestDecode_eq_error {maxb : Nat} {h : Word32} {ws : List Word32} {e : ErrCode}
    (hd : requestDecode maxb h ws = .error e) :
    e = .opcode ∨ ∃ op : Op, h = op.header ∧ (e = .shape → op ≠ .crc) := by
  cases hop : decodeHeader h with
  | none =>
    simp only [requestDecode, hop] at hd
    cases hd
    exact .inl rfl
  | some op =>
    obtain rfl := decodeHeader_eq_some.1 hop
    refine .inr ⟨op, rfl, ?_⟩
    rintro rfl rfl
    simp only [requestDecode_header, shape] at hd
    split_ifs at hd <;> cases hd

/-- An error leaves an error response (60_exceptions.md R155). -/
theorem errorResponse_raiseError {maxb : Nat} {h : Word32} {ws : List Word32} {e : ErrCode} (s : State)
    (hd : requestDecode maxb h ws = .error e) : ErrorResponse (s.raiseError (opField h) e) := by
  refine ⟨opField h, e, packStatus_error _ _, rfl, (requestDecode_eq_error hd).imp_right ?_⟩
  rintro ⟨op, rfl, hs⟩
  exact ⟨op, (opField_header op).symm, hs⟩

/-- A `crc` request that completes leaves a CRC response (41_checksum.md R104). -/
theorem crcResponse_complete (s : State) (args : List Word32) :
    CrcResponse (s.complete Op.crc.code (operation .crc args)) := by
  refine ⟨computeCrc (args.map byteOf), ?_, ?_⟩
  · change packStatus 1 Op.crc.code 0 = 0x00010100
    decide
  · simp [operation, crcOp, BitVec.ofNat_toNat]

/-- A frame operation that completes leaves a whole frame with its right CRC (42_frame.md R128). -/
theorem frameResponse_complete {op : Op} {args : List Word32} {s : State} (hop : op ≠ .crc) (hP : s.params.wf)
    (hm : args.length ≤ s.params.maxb) (hn : admitsCount op args.length) :
    FrameResponse (s.complete op.code (operation op args)) := by
  obtain ⟨body, hbody, hl⟩ := operation_eq_frameWords_sealFrame hop hn
  obtain ⟨-, h6, -⟩ := hP
  have hcount : 2 ≤ body.length ∧ body.length ≤ s.params.maxb := by
    rw [hl]
    split_ifs with hraw
    · obtain rfl | ⟨rfl, -⟩ := hraw <;> exact ⟨hn, hm⟩
    · exact ⟨by decide, h6⟩
  refine ⟨op, sealFrame body, hop, wellSealed_sealFrame body, ?_, ?_, ?_, ?_, ?_⟩
  · rw [sealFrame_length]
    omega
  · rw [sealFrame_length, complete_params, Params.frameMax]
    omega
  · rintro (rfl | rfl | rfl) <;> simp [hl]
  · rw [complete_rspStatus, hbody, frameWords_length, packStatus_ok]
  · rw [complete_rspData, hbody, frameWords_eq_byteWords]

/-- A request leaves an error, a CRC or a frame, whatever its words and the state before (40_register_access.md R91). -/
theorem inv_runRequest {h : Word32} {ws : List Word32} {s : State} (hP : s.params.wf) : Inv (runRequest h ws s) := by
  refine ⟨by rwa [runRequest_params], .inr ?_⟩
  obtain ⟨op, args, hd, hr⟩ | ⟨e, hd, hr⟩ := runRequest_cases h ws s <;> rw [hr]
  · obtain ⟨rfl, -⟩ := requestDecode_eq_ok hd
    obtain ⟨-, hm, hn⟩ := requestDecode_ok_length hd
    rw [opField_header]
    by_cases hop : op = .crc
    · subst hop
      exact .inr (.inl (crcResponse_complete s args))
    · exact .inr (.inr (frameResponse_complete hop hP hm hn))
  · exact .inl (errorResponse_raiseError s hd)

/-- The invariant speaks of the configuration and the response alone. -/
theorem inv_of_sameResponse {s t : State} (hp : t.params = s.params) (hs : t.rspStatus = s.rspStatus)
    (hd : t.rspData = s.rspData) (h : Inv s) : Inv t := by
  simpa only [Inv, NoResponse, ErrorResponse, CrcResponse, FrameResponse, hp, hs, hd] using h

/-- After a reset there is no response. -/
theorem inv_resetBlock {s : State} (hP : s.params.wf) : Inv s.resetBlock := ⟨hP, .inl ⟨rfl, rfl⟩⟩

/-- The instructions that write the response: a request operation and `wr REQ_LAST` (10_state.md R30). -/
theorem exec_sameResponse_or_request {i : Instr} {s t : State} (h : exec i s = .next t) :
    (t.rspStatus = s.rspStatus ∧ t.rspData = s.rspData) ∨
      ∃ hd ws, t = runRequest hd ws s ∧ ((∃ op, i = Instr.ofOp op ws) ∨ ∃ v, i = .wrReqLast v) := by
  obtain ⟨hd, ws, ht, ⟨op, hi, -⟩ | ⟨v, hi, -⟩⟩ | ⟨v, -, rfl⟩ | ⟨v, -, rfl⟩ | ⟨-, rfl⟩ | ⟨⟨w, rfl⟩ | rfl, -⟩ := exec_cases h
  · exact .inr ⟨hd, ws, ht, .inl ⟨op, hi⟩⟩
  · exact .inr ⟨hd, ws, ht, .inr ⟨v, hi⟩⟩
  all_goals exact .inl ⟨rfl, rfl⟩

/-- Every instruction keeps the invariant. -/
theorem exec_keeps_inv {i : Instr} {s t : State} (h : exec i s = .next t) (hI : Inv s) : Inv t := by
  obtain ⟨hs, hd⟩ | ⟨hd, ws, rfl, -⟩ := exec_sameResponse_or_request h
  · exact inv_of_sameResponse (exec_params_pending h).1 hs hd hI
  · exact inv_runRequest hI.1

/-- Settles O48, by the things a step can do: an instruction keeps the invariant and a reset restores it. -/
theorem everyStepKeepsTheInvariant : Obligations.EveryStepKeepsTheInvariant := by
  intro s t hI h
  have hP : t.params.wf := by
    rw [step_params h]
    exact hI.1
  obtain ⟨-, rfl⟩ | ⟨e, rest, -, ⟨a, i, -, -, he⟩ | ⟨-, rfl⟩ | ⟨a, i, -, -, he | ⟨m, -, rfl⟩⟩⟩ := step_cases h
  · exact hI
  · exact exec_keeps_inv he (inv_of_sameResponse rfl rfl rfl hI)
  · exact inv_resetBlock hP
  · exact exec_keeps_inv he (inv_resetBlock hI.1)
  · exact inv_resetBlock hP

end Sys2Proof.Machine
end

/-! ### What the invariant says of the status fields -/
section
namespace Sys2Proof.Machine

/-- Under the invariant RSP_STATUS is a packed status word whose LEN counts the data words; only an error has an ECODE, and only
the reset response has neither OPECHO nor ECODE (10_state.md R25, R30). -/
theorem Inv.exists_packStatus {s : State} (h : Inv s) :
    ∃ o e, s.rspStatus = packStatus s.rspData.length o e ∧ s.rspData.length ≤ s.params.frameMax ∧ e.toNat ≤ 4 ∧
      (e ≠ 0 → s.rspData = []) ∧ (o = 0 → e = 0 → NoResponse s) := by
  obtain ⟨⟨-, h6, -⟩, ⟨hs, hd⟩ | ⟨o, e, hs, hd, -⟩ | ⟨c, hs, hd⟩ | ⟨op, fr, -, -, -, hmax, -, hs, hd⟩⟩ := h
  · refine ⟨0, 0, ?_, by simp [hd], by decide, fun _ => hd, fun _ _ => ⟨hs, hd⟩⟩
    rw [hs, hd]
    decide
  · refine ⟨o, errorCode e, ?_, by simp [hd], by cases e <;> decide, fun _ => hd, fun _ he => ?_⟩
    · rw [hs, hd, ← packStatus_error]
      rfl
    · cases e <;> exact absurd he (by decide)
  · refine ⟨Op.crc.code, 0, ?_, ?_, by decide, fun he => absurd rfl he, fun ho => absurd ho (by decide)⟩
    · rw [hs, hd]
      change _ = packStatus 1 _ _
      decide
    · rw [hd, Params.frameMax, List.length_singleton]
      omega
  · refine ⟨op.code, 0, ?_, ?_, by decide, fun he => absurd rfl he, fun ho => ?_⟩
    · rw [hs, hd, byteWords_length, packStatus_ok]
    · rwa [hd, byteWords_length]
    · cases op <;> exact absurd ho (by decide)

/-- Settles O49: the fields of the packed status word, LEN being below 0x10000 because MAXB is at most 254. -/
theorem invariantFixesTheStatusFields : Obligations.InvariantFixesTheStatusFields := by
  intro s hI
  obtain ⟨o, e, hs, hmax, he, herr, hnone⟩ := hI.exists_packStatus
  obtain ⟨⟨-, -, h254⟩, -⟩ := hI
  have hlen : s.rspData.length < 2 ^ 16 := by
    unfold Params.frameMax at hmax
    omega
  rw [hs, lenField_packStatus, reservedField_packStatus, ecodeField_packStatus, opechoField_packStatus, ← hs]
  exact ⟨(Nat.mod_eq_of_lt hlen).symm, hmax, rfl, he, herr, hnone⟩

end Sys2Proof.Machine
end

/-! ### The accesses that write the response -/
section
namespace Sys2Proof.Machine

/-- No offset decodes to a request operation: only a request has its words. -/
theorem decodeOffset_ne_ofOp (off : Offset) (tr : Transfer) (op : Op) (ws : List Word32) :
    decodeOffset off tr ≠ Instr.ofOp op ws := by
  cases tr with
  | read => cases op <;> simp only [decodeOffset, Instr.ofOp] <;> split_ifs <;> exact Instr.noConfusion
  | write v => cases op <;> simp only [decodeOffset, Instr.ofOp] <;> split_ifs <;> exact Instr.noConfusion

/-- `wr REQ_LAST` is a write of offset 0x004 and nothing else (10_state.md R27). -/
theorem decodeOffset_eq_wrReqLast {off : Offset} {tr : Transfer} {v : Word32} (h : decodeOffset off tr = .wrReqLast v) :
    off = 0x004 ∧ tr = .write v := by
  cases tr with
  | read =>
    simp only [decodeOffset] at h
    split_ifs at h
  | write w =>
    simp only [decodeOffset] at h
    split_ifs at h with h0 h4
    cases h
    exact ⟨h4, rfl⟩

/-- An access that writes the response is a REQ_LAST write. -/
theorem eq_memWrite_reqLast_of_response_ne {a : BusAccess} {i : Instr} {s t : State} (hd : decodeAccess s.params a = .ok i)
    (he : exec i s = .next t) (hne : t.rspStatus ≠ s.rspStatus ∨ t.rspData ≠ s.rspData) :
    ∃ v, a = memWrite s.params 0x004 v := by
  obtain ⟨off, -, ha, hi⟩ := decodeAccess_eq_ok hd
  obtain ⟨hs, hdat⟩ | ⟨-, ws, -, ⟨op, hop⟩ | ⟨v, hv⟩⟩ := exec_sameResponse_or_request he
  · exact absurd hne (by simp [hs, hdat])
  · exact absurd (hi.symm.trans hop) (decodeOffset_ne_ofOp off a.transfer op ws)
  · obtain ⟨rfl, htr⟩ := decodeOffset_eq_wrReqLast (hi.symm.trans hv)
    rw [htr] at ha
    exact ⟨v, ha⟩

/-- Settles O39, by the things a step can do: of the accesses only a REQ_LAST write changes the response. -/
theorem onlyCompletionAndResetWriteTheResponse : Obligations.OnlyCompletionAndResetWriteTheResponse := by
  intro s t h hne
  obtain ⟨-, rfl⟩ | ⟨e, rest, hp, hev⟩ := step_cases h
  · simp at hne
  · refine ⟨e, rest, hp, ?_⟩
    obtain ⟨a, i, rfl, hd, he⟩ | ⟨rfl, -⟩ | ⟨a, i, rfl, -, -⟩ := hev
    · exact eq_memWrite_reqLast_of_response_ne (s := { s with pending := rest }) hd he hne
    · trivial
    · trivial

end Sys2Proof.Machine
end

/-! ### STAT, reads from LEN on, and the step of an access and of no event -/
section
namespace Sys2Proof.Machine

/-- The number a STAT word is (10_state.md R29). -/
theorem statWord_toNat (asm : List Word32) :
    (statWord asm).toNat = min asm.length 0xFFFF * 0x10000 + if 0 < asm.length then 1 else 0 := by
  have hpend : (pend asm).toNat = if 0 < asm.length then 1 else 0 := by
    unfold pend
    split_ifs <;> rfl
  have hacnt : (acnt asm).toNat = min asm.length 0xFFFF := by
    rw [acnt, BitVec.toNat_ofNat]
    omega
  have hzero : (0 : BitVec 15).toNat = 0 := rfl
  have hcat : (statWord asm).toNat = (acnt asm).toNat * 2 ^ 15 * 2 + (pend asm).toNat := by
    unfold statWord
    rw [BitVec.toNat_append, ← Nat.shiftLeft_add_eq_or_of_lt (pend asm).isLt, Nat.shiftLeft_eq, BitVec.toNat_append,
      ← Nat.shiftLeft_add_eq_or_of_lt (BitVec.isLt _), Nat.shiftLeft_eq, hzero, Nat.add_zero, Nat.pow_one]
  rw [hcat, hpend, hacnt]
  omega

/-- Bit 0 of STAT is PEND. -/
theorem statWord_bit0_eq_one_iff (asm : List Word32) : (statWord asm).extractLsb' 0 1 = 1 ↔ asm ≠ [] := by
  rw [← BitVec.toNat_inj, BitVec.extractLsb'_toNat, statWord_toNat, Nat.shiftRight_zero, ← List.length_pos_iff]
  change _ % 2 = 1 ↔ _
  split_ifs <;> omega

/-- Bits 15:1 of STAT are reserved. -/
theorem statWord_reserved (asm : List Word32) : (statWord asm).extractLsb' 1 15 = 0 := by
  rw [← BitVec.toNat_inj, BitVec.extractLsb'_toNat, statWord_toNat, Nat.shiftRight_eq_div_pow]
  change _ = 0
  split_ifs <;> omega

/-- Bits 31:16 of STAT are ACNT. -/
theorem statWord_count (asm : List Word32) : ((statWord asm).extractLsb' 16 16).toNat = min asm.length 0xFFFF := by
  rw [BitVec.extractLsb'_toNat, statWord_toNat, Nat.shiftRight_eq_div_pow]
  split_ifs <;> omega

/-- Settles O5: the fields, the reset value, and a write of STAT as the ignored write of its offset. -/
theorem statFieldsFollowTheBuffer : Obligations.StatFieldsFollowTheBuffer := by
  refine ⟨fun asm => ⟨statWord_bit0_eq_one_iff asm, statWord_reserved asm, statWord_count asm⟩, by decide, fun P s v => ?_⟩
  exact ⟨.wrReadOnlyOrReserved 0x008 v, congrArg (Except.mapError Reject.access)
    (decodeAccess_of_offset P 0x008 (.write v) rfl), rfl⟩

/-- Settles O9: from LEN on the read is a draw, and after reset LEN is 0. -/
theorem rdRspDataFromLenOnIsUnspecified : Obligations.RdRspDataFromLenOnIsUnspecified :=
  ⟨fun _ s h => ⟨Config.draw s.draws, s.returnDraw, exec_rdRspData_of_len_le h, rfl, ⟨rfl, rfl, rfl⟩, rfl, rfl⟩,
    fun i => Nat.zero_le i.toNat⟩

/-- The decoder on a bus access answers an instruction exactly where `decodeAccess` does. -/
theorem decode_access_eq_ok {P : Params} {a : BusAccess} {i : Instr} :
    decode P (.access a) = .ok i ↔ decodeAccess P a = .ok i := by
  cases hd : decodeAccess P a <;> simp [decode, hd, Except.mapError]

/-- Settles O34: the step performs the access, which runs the instruction it decodes to. -/
theorem stepRunsTheDecodedInstruction : Obligations.StepRunsTheDecodedInstruction := by
  intro s a rest i hp hd
  rw [step_access hp]
  exact performAccess_of_decode (decode_access_eq_ok.1 hd)

/-- Settles O38: with no event there is nothing to fetch. -/
theorem noEventNoChange : Obligations.NoEventNoChange := by
  intro s hp
  simp [step, fetch_nil s hp]

end Sys2Proof.Machine
end

/-! ### The admitted accesses and the runs made of them -/
section
namespace Sys2Proof.Machine

/-- The accesses that 20_memory.md R57 admits, by their offset in the window. -/
theorem admitted_iff_exists_offset {P : Params} {a : BusAccess} :
    a.admitted P ↔ ∃ off : Nat, off < 0x1000 ∧ off % 4 = 0 ∧ a.addr = P.base + off ∧ a.bits = 32 := by
  constructor
  · rintro ⟨hbits, hlo, hhi, halign⟩
    exact ⟨a.addr - P.base, by omega, halign, by omega, hbits⟩
  · rintro ⟨off, hoff, halign, haddr, hbits⟩
    exact ⟨hbits, by omega, by omega, by omega⟩

/-- The decoder takes exactly the admitted accesses (40_register_access.md R99). -/
theorem exists_decodeAccess_eq_ok_iff {P : Params} {a : BusAccess} :
    (∃ i, decodeAccess P a = .ok i) ↔ a.admitted P := by
  constructor
  · rintro ⟨i, hd⟩
    obtain ⟨off, halign, ha, -⟩ := decodeAccess_eq_ok hd
    exact admitted_iff_exists_offset.2
      ⟨off.toNat, off.isLt, halign, congrArg BusAccess.addr ha, congrArg BusAccess.bits ha⟩
  · rintro ⟨hbits, hlo, hhi, halign⟩
    have hwindow : ¬ (a.addr < P.base ∨ P.base + 0x1000 ≤ a.addr) := by omega
    exact ⟨_, by rw [decodeAccess, if_neg (not_not.2 hbits), if_neg hwindow, if_neg (not_not.2 halign)]⟩

/-- An admitted access completes. -/
theorem performAccess_of_admitted {a : BusAccess} {s : State} (h : a.admitted s.params) :
    ∃ t, performAccess a s = .next t := by
  obtain ⟨i, hd⟩ := exists_decodeAccess_eq_ok_iff.2 h
  rw [performAccess_of_decode hd]
  exact exec_completes i s

/-- Any other access is refused under the name of its rejection. -/
theorem performAccess_of_not_admitted {a : BusAccess} {s : State} (h : ¬ a.admitted s.params) :
    ∃ r, performAccess a s = .refused (refusalOf r) := by
  cases hd : decodeAccess s.params a with
  | error r => exact ⟨r, by simp [performAccess, hd]⟩
  | ok i => exact absurd (exists_decodeAccess_eq_ok_iff.1 ⟨i, hd⟩) h

/-- Settles O36: the admitted accesses complete, and the refusal of any other has one of the three names. -/
theorem exactlyTheAdmittedAccessesAreTaken : Obligations.ExactlyTheAdmittedAccessesAreTaken := by
  intro s a rest hp
  rw [step_access hp]
  refine ⟨fun h => performAccess_of_admitted (admitted_iff_exists_offset.2 h), fun h => ?_⟩
  obtain ⟨r, hr⟩ := performAccess_of_not_admitted (s := { s with pending := rest }) (mt admitted_iff_exists_offset.1 h)
  rw [hr]
  cases r with
  | notWord32 => exact .inl rfl
  | outsideWindow => exact .inr (.inl rfl)
  | misaligned => exact .inr (.inr rfl)

/-- A step takes the first event, if any, off the host program (20_memory.md R56). -/
theorem step_pending {s t : State} (h : step s = .next t) : t.pending = s.pending.tail := by
  obtain ⟨hp, rfl⟩ | ⟨e, rest, hp, ⟨a, i, -, -, he⟩ | ⟨-, rfl⟩ | ⟨a, i, -, -, he | ⟨m, he, rfl⟩⟩⟩ := step_cases h
  · simp [hp]
  · simpa [hp] using (exec_params_pending he).2
  · simp [hp]
  · simpa [hp] using (exec_params_pending he).2
  · simpa [hp] using (exec_params_pending he).2

/-- A step returns at most one value to the host. -/
theorem step_observed {s t : State} (h : step s = .next t) :
    t.observed = s.observed ∨ ∃ w, t.observed = s.observed ++ [w] := by
  obtain ⟨-, rfl⟩ | ⟨e, rest, -, ⟨a, i, -, -, he⟩ | ⟨-, rfl⟩ | ⟨a, i, -, -, he | ⟨m, he, rfl⟩⟩⟩ := step_cases h
  · exact .inl rfl
  · simpa using exec_observed he
  · exact .inl rfl
  · simpa using exec_observed he
  · simpa using exec_observed he

/-- Settles O37: what a step does to the host program and to what has been read. -/
theorem aStepRemovesTheFirstEventOnly : Obligations.AStepRemovesTheFirstEventOnly := by
  intro s t e rest hp h
  exact ⟨by rw [step_pending h, hp, List.tail_cons], step_observed h⟩

/-- A step keeps the remaining program an admitted one: it changes no parameter and adds no event. -/
theorem step_keeps_admittedProgram {s t : State} (h : step s = .next t) (hs : AdmittedProgram s) : AdmittedProgram t := by
  intro e he
  rw [step_params h]
  rw [step_pending h] at he
  exact hs e (List.mem_of_mem_tail he)

/-- An admitted program is not refused at its next event, of any kind. -/
theorem step_completes_of_admittedProgram {s : State} (hs : AdmittedProgram s) : ∃ t, step s = .next t := by
  cases hp : s.pending with
  | nil => exact ⟨s, noEventNoChange s hp⟩
  | cons e rest =>
    have hadm : eventAdmitted s.params e := hs e (by simp [hp])
    cases e with
    | access a =>
      rw [step_access hp]
      exact performAccess_of_admitted hadm
    | reset => exact ⟨_, step_reset hp⟩
    | accessDuringReset a =>
      rw [step_accessDuringReset hp]
      split_ifs
      · exact performAccess_of_admitted hadm
      · obtain ⟨m, hm⟩ := performAccess_of_admitted (s := { s with pending := rest, draws := s.draws + 1 }) hadm
        exact ⟨m.resetBlock, by rw [hm]; rfl⟩

/-- Settles O46, by induction on the number of steps. -/
theorem admittedProgramsNeverStop : Obligations.AdmittedProgramsNeverStop := by
  intro n
  induction n with
  | zero => exact fun s hs => ⟨s, rfl, hs⟩
  | succ n ih =>
    intro s hs
    obtain ⟨t, ht⟩ := step_completes_of_admittedProgram hs
    rw [run_succ n ht]
    exact ih t (step_keeps_admittedProgram ht hs)

end Sys2Proof.Machine
end

/-! ### The accesses that change the assembly buffer -/
section
namespace Sys2Proof.Machine

/-- The writes of the three ports are the writes of their offsets (10_state.md R27). -/
theorem decodeOffset_eq_portWrite {off : Offset} {tr : Transfer} {v : Word32}
    (h : decodeOffset off tr = .wrReq v ∨ decodeOffset off tr = .wrReqLast v ∨ decodeOffset off tr = .wrAbort v) :
    tr = .write v ∧ (off = 0x000 ∨ off = 0x004 ∨ off = 0x014) := by
  cases tr with
  | read => obtain h | h | h := h <;> simp only [decodeOffset] at h <;> split_ifs at h
  | write w =>
    obtain h | h | h := h <;> simp only [decodeOffset] at h <;> split_ifs at h with h0 h4 h14 <;> cases h
    · exact ⟨rfl, .inl h0⟩
    · exact ⟨rfl, .inr (.inl h4)⟩
    · exact ⟨rfl, .inr (.inr h14)⟩

/-- The instructions that change the assembly buffer: a request operation and the writes of the three ports. -/
theorem exec_sameAsm_or_portWrite {i : Instr} {s t : State} (h : exec i s = .next t) :
    t.asm = s.asm ∨ (∃ op ws, i = Instr.ofOp op ws) ∨ ∃ v, i = .wrReq v ∨ i = .wrReqLast v ∨ i = .wrAbort v := by
  obtain ⟨-, ws, -, ⟨op, hi, -⟩ | ⟨v, hi, -⟩⟩ | ⟨v, hi, -⟩ | ⟨v, hi, -⟩ | ⟨-, rfl⟩ | ⟨⟨w, rfl⟩ | rfl, -⟩ := exec_cases h
  · exact .inr (.inl ⟨op, ws, hi⟩)
  · exact .inr (.inr ⟨v, .inr (.inl hi)⟩)
  · exact .inr (.inr ⟨v, .inl hi⟩)
  · exact .inr (.inr ⟨v, .inr (.inr hi)⟩)
  all_goals exact .inl rfl

/-- An access that changes the assembly buffer is a write of one of the three ports. -/
theorem eq_memWrite_port_of_asm_ne {a : BusAccess} {i : Instr} {s t : State} (hd : decodeAccess s.params a = .ok i)
    (he : exec i s = .next t) (hne : t.asm ≠ s.asm) :
    ∃ v, a = memWrite s.params 0x000 v ∨ a = memWrite s.params 0x004 v ∨ a = memWrite s.params 0x014 v := by
  obtain ⟨off, -, ha, rfl⟩ := decodeAccess_eq_ok hd
  obtain hsame | ⟨op, ws, hop⟩ | ⟨v, hv⟩ := exec_sameAsm_or_portWrite he
  · exact absurd hsame hne
  · exact absurd hop (decodeOffset_ne_ofOp off a.transfer op ws)
  · obtain ⟨htr, hoff⟩ := decodeOffset_eq_portWrite hv
    rw [htr] at ha
    refine ⟨v, ?_⟩
    obtain rfl | rfl | rfl := hoff
    · exact .inl ha
    · exact .inr (.inl ha)
    · exact .inr (.inr ha)

/-- Settles O40, by the things a step can do: of the accesses only a write of one of the three ports changes the buffer. -/
theorem onlyItsPortsAndResetChangeTheBuffer : Obligations.OnlyItsPortsAndResetChangeTheBuffer := by
  intro s t h hne
  obtain ⟨-, rfl⟩ | ⟨e, rest, hp, hev⟩ := step_cases h
  · exact absurd rfl hne
  · refine ⟨e, rest, hp, ?_⟩
    obtain ⟨a, i, rfl, hd, he⟩ | ⟨rfl, -⟩ | ⟨a, i, rfl, -, -⟩ := hev
    · exact eq_memWrite_port_of_asm_ne (s := { s with pending := rest }) hd he hne
    · trivial
    · trivial

end Sys2Proof.Machine
end

/-! ### Reads, and the read right after a REQ_LAST write -/
section
namespace Sys2Proof.Machine

/-- A read returns a value, or a draw (40_register_access.md R94 to R98). -/
theorem exec_read_cases {i : Instr} {idx : BitVec 8} {off : Offset} (s : State)
    (hi : i = .rdStat ∨ i = .rdRspStatus ∨ i = .rdCaps ∨ i = .rdRspData idx ∨ i = .rdWriteOnlyOrReserved off) :
    (∃ w, exec i s = .next (s.returnRead w)) ∨ exec i s = .next s.returnDraw := by
  obtain rfl | rfl | rfl | rfl | rfl := hi
  · exact .inl ⟨_, rfl⟩
  · exact .inl ⟨_, rfl⟩
  · exact .inl ⟨_, rfl⟩
  · obtain ⟨w, -, hw⟩ | ⟨-, hw⟩ := exec_rdRspData_cases idx s
    · exact .inl ⟨w, hw⟩
    · exact .inr hw
  · exact .inl ⟨_, rfl⟩

/-- Settles O33: a returned value and a draw each add one value to what has been read, and leave the block. -/
theorem readFrame : Obligations.ReadFrame := by
  intro i idx off s hi
  obtain ⟨w, hw⟩ | hw := exec_read_cases s hi
  · exact ⟨s.returnRead w, w, hw, ⟨rfl, rfl, rfl⟩, rfl, rfl, rfl⟩
  · exact ⟨s.returnDraw, Config.draw s.draws, hw, ⟨rfl, rfl, rfl⟩, rfl, rfl, rfl⟩

/-- A request runs the same whatever the host does next. -/
theorem runRequest_withPending (h : Word32) (ws : List Word32) (s : State) (p : List HostEvent) :
    runRequest h ws { s with pending := p } = { runRequest h ws s with pending := p } := by
  cases hd : requestDecode s.params.maxb h ws with
  | error e =>
    rw [runRequest_error hd, runRequest_error (s := { s with pending := p }) hd]
    rfl
  | ok r =>
    rw [runRequest_ok hd, runRequest_ok (s := { s with pending := p }) hd]
    rfl

/-- A REQ_LAST write does the same whatever the host does next. -/
theorem exec_wrReqLast_withPending {s t : State} {v : Word32} (h : exec (.wrReqLast v) s = .next t) (p : List HostEvent) :
    exec (.wrReqLast v) { s with pending := p } = .next { t with pending := p } := by
  obtain ⟨hd, ws, hw⟩ := request_nonempty s.asm v
  rw [exec_wrReqLast hw] at h
  injection h with h
  rw [exec_wrReqLast (s := { s with pending := p }) hw, runRequest_withPending, h]

/-- The step that reads RSP_STATUS returns it to the host. -/
theorem step_memRead_rspStatus {s : State} {rest : List HostEvent}
    (h : s.pending = .access (memRead s.params 0x00C) :: rest) :
    step s = .next { s with pending := rest, observed := s.observed ++ [s.rspStatus] } :=
  step_memRead rfl h

/-- Settles O45: the write's step leaves the read next, and the read's step returns the status the write left. -/
theorem nextReadSeesTheResponse : Obligations.NextReadSeesTheResponse := by
  intro s t v rest hp he
  have hparams : t.params = s.params := (exec_params_pending he).1
  have hpending : t.pending = rest := (exec_params_pending he).2
  have hp' : s.pending = .access (memWrite s.params 0x004 v) :: .access (memRead t.params 0x00C) :: rest := by
    rw [hp, hparams]
    rfl
  have hwrite : step s = .next { t with pending := .access (memRead t.params 0x00C) :: rest } :=
    (step_memWrite rfl hp').trans (exec_wrReqLast_withPending he _)
  rw [run_succ 1 hwrite, run_succ 0 (step_memRead_rspStatus rfl), ← hpending]
  rfl

end Sys2Proof.Machine
end

/-! ### The decoder and the encoder, both ways -/
section
namespace Sys2Proof.Machine

/-- A request decodes exactly where its header is an operation's header word (30_encoding.md R71, R76, R77). -/
theorem decodeRequest_eq_ok {req : List Word32} {i : Instr} :
    decodeRequest req = .ok i ↔ ∃ op ws, req = op.header :: ws ∧ i = Instr.ofOp op ws := by
  constructor
  · intro h
    cases req with
    | nil => cases h
    | cons w ws =>
      cases hop : decodeHeader w with
      | none => simp [decodeRequest, hop] at h
      | some op =>
        simp only [decodeRequest, hop, Except.ok.injEq] at h
        exact ⟨op, ws, by rw [decodeHeader_eq_some.1 hop], h.symm⟩
  · rintro ⟨op, ws, rfl, rfl⟩
    simp [decodeRequest]

/-- An operation's instruction is encoded as its header word and its operand words (R79). -/
theorem encode_ofOp (P : Params) (op : Op) (ws : List Word32) :
    encode P (Instr.ofOp op ws) = .request (op.header :: ws) := by cases op <;> rfl

/-- A request instruction comes back from its words. -/
theorem decode_encode_ofOp (P : Params) (op : Op) (ws : List Word32) :
    decode P (encode P (Instr.ofOp op ws)) = .ok (Instr.ofOp op ws) := by
  rw [encode_ofOp]
  exact decodeRequest_eq_ok.2 ⟨op, ws, rfl, rfl⟩

/-- A write of an aligned offset decodes by its offset (20_memory.md R57). -/
theorem decode_memWrite (P : Params) {off : Offset} (v : Word32) (ha : off.toNat % 4 = 0) :
    decode P (.access (memWrite P off v)) = .ok (decodeOffset off (.write v)) :=
  decode_access_eq_ok.2 (decodeAccess_of_offset P off (.write v) ha)

/-- A read of an aligned offset decodes by its offset (20_memory.md R57). -/
theorem decode_memRead (P : Params) {off : Offset} (ha : off.toNat % 4 = 0) :
    decode P (.access (memRead P off)) = .ok (decodeOffset off .read) :=
  decode_access_eq_ok.2 (decodeAccess_of_offset P off .read ha)

/-- The offsets R93 lists are aligned, and none of the three ports. -/
theorem of_ignoresWrites {off : Offset} (h : ignoresWrites off = true) :
    off.toNat % 4 = 0 ∧ off.toNat ≠ 0x000 ∧ off.toNat ≠ 0x004 ∧ off.toNat ≠ 0x014 := by
  simp only [ignoresWrites, Bool.and_eq_true, Bool.or_eq_true, decide_eq_true_eq] at h
  omega

/-- The offsets R98 lists are aligned, none of the three readable registers, and outside RSP_DATA. -/
theorem of_readsZero {off : Offset} (h : readsZero off = true) :
    off.toNat % 4 = 0 ∧ off.toNat ≠ 0x008 ∧ off.toNat ≠ 0x00C ∧ off.toNat ≠ 0x010 ∧
      ¬ (0x400 ≤ off.toNat ∧ off.toNat < 0x800) := by
  simp only [readsZero, Bool.and_eq_true, Bool.or_eq_true, decide_eq_true_eq] at h
  omega

/-- Bits [11:10] of an offset are 1 exactly in the RSP_DATA array (10_state.md R27, R33). -/
theorem extractLsb'_eq_one_iff_rspData {off : Offset} :
    off.extractLsb' 10 2 = 1 ↔ 0x400 ≤ off.toNat ∧ off.toNat < 0x800 := by
  have hlt : off.toNat < 0x1000 := off.isLt
  rw [← BitVec.toNat_inj, BitVec.extractLsb'_toNat, Nat.shiftRight_eq_div_pow]
  change off.toNat / 1024 % 4 = 1 ↔ _
  omega

/-- The index of an offset `RSP_DATA[i]` is `i` (R33). -/
theorem extractLsb'_rspDataOffset (i : BitVec 8) : (rspDataOffset i).extractLsb' 2 8 = i := by
  have hlt := i.isLt
  rw [← BitVec.toNat_inj, BitVec.extractLsb'_toNat, rspDataOffset_toNat, Nat.shiftRight_eq_div_pow]
  omega

/-- An aligned offset in the RSP_DATA array is that of its index (R33). -/
theorem rspDataOffset_extractLsb' {off : Offset} (ha : off.toNat % 4 = 0) (h : off.extractLsb' 10 2 = 1) :
    rspDataOffset (off.extractLsb' 2 8) = off := by
  rw [extractLsb'_eq_one_iff_rspData] at h
  rw [← BitVec.toNat_inj, rspDataOffset_toNat, BitVec.extractLsb'_toNat, Nat.shiftRight_eq_div_pow]
  omega

/-- An ignored write comes back from its offset (40_register_access.md R93). -/
theorem decodeOffset_write_of_ignoresWrites {off : Offset} (v : Word32) (h : ignoresWrites off = true) :
    decodeOffset off (.write v) = .wrReadOnlyOrReserved off v := by
  obtain ⟨-, h0, h4, h14⟩ := of_ignoresWrites h
  rw [decodeOffset, if_neg (ne_of_apply_ne _ h0), if_neg (ne_of_apply_ne _ h4), if_neg (ne_of_apply_ne _ h14)]

/-- A read of zero comes back from its offset (R98). -/
theorem decodeOffset_read_of_readsZero {off : Offset} (h : readsZero off = true) :
    decodeOffset off .read = .rdWriteOnlyOrReserved off := by
  obtain ⟨-, h8, hC, h10, hdata⟩ := of_readsZero h
  rw [decodeOffset, if_neg (ne_of_apply_ne _ h8), if_neg (ne_of_apply_ne _ hC), if_neg (ne_of_apply_ne _ h10),
    if_neg (mt extractLsb'_eq_one_iff_rspData.1 hdata)]

/-- A read of RSP_DATA comes back from its offset, with its index (R97). -/
theorem decodeOffset_rspDataOffset (i : BitVec 8) : decodeOffset (rspDataOffset i) .read = .rdRspData i := by
  have hlt := i.isLt
  have hn := rspDataOffset_toNat i
  have hbelow {off : Offset} (h : off.toNat < 0x400) : rspDataOffset i ≠ off :=
    ne_of_apply_ne BitVec.toNat (by omega)
  rw [decodeOffset, if_neg (hbelow (by decide)), if_neg (hbelow (by decide)), if_neg (hbelow (by decide)),
    if_pos (extractLsb'_eq_one_iff_rspData.2 (by omega)), extractLsb'_rspDataOffset]

/-- Settles O50: a request instruction comes back from its header word, an access instruction from its offset. -/
theorem decodeOfEncodeIsTheInstruction : Obligations.DecodeOfEncodeIsTheInstruction := by
  intro P i hwf
  cases i with
  | crc ws => exact decode_encode_ofOp P .crc ws
  | frameWrite ws => exact decode_encode_ofOp P .frameWrite ws
  | frameRead ws => exact decode_encode_ofOp P .frameRead ws
  | frameRaw4 ws => exact decode_encode_ofOp P .frameRaw4 ws
  | frameRaw ws => exact decode_encode_ofOp P .frameRaw ws
  | frameAuto ws => exact decode_encode_ofOp P .frameAuto ws
  | wrReq v => exact decode_memWrite P v rfl
  | wrReqLast v => exact decode_memWrite P v rfl
  | wrAbort v => exact decode_memWrite P v rfl
  | wrReadOnlyOrReserved off v =>
    obtain ⟨halign, -⟩ := of_ignoresWrites hwf
    exact (decode_memWrite P v halign).trans (congrArg _ (decodeOffset_write_of_ignoresWrites v hwf))
  | rdStat => exact decode_memRead P rfl
  | rdRspStatus => exact decode_memRead P rfl
  | rdCaps => exact decode_memRead P rfl
  | rdRspData idx =>
    have halign : (rspDataOffset idx).toNat % 4 = 0 := by
      rw [rspDataOffset_toNat]
      omega
    exact (decode_memRead P halign).trans (congrArg _ (decodeOffset_rspDataOffset idx))
  | rdWriteOnlyOrReserved off =>
    obtain ⟨halign, -⟩ := of_readsZero hwf
    exact (decode_memRead P halign).trans (congrArg _ (decodeOffset_read_of_readsZero hwf))

/-- What an aligned offset decodes to is encoded as the access of that offset: no bit of it is lost. -/
theorem encode_decodeOffset (P : Params) {off : Offset} (tr : Transfer) (ha : off.toNat % 4 = 0) :
    encode P (decodeOffset off tr) = .access { addr := P.base + off.toNat, bits := 32, transfer := tr } := by
  cases tr with
  | write v =>
    simp only [decodeOffset]
    split_ifs with h0 h4 h14
    · rw [h0]; rfl
    · rw [h4]; rfl
    · rw [h14]; rfl
    · rfl
  | read =>
    simp only [decodeOffset]
    split_ifs with h8 hC h10 hdata
    · rw [h8]; rfl
    · rw [hC]; rfl
    · rw [h10]; rfl
    · simp only [encode, rspDataOffset_extractLsb' ha hdata]; rfl
    · rfl

/-- Settles O51: an access that decodes is the one at its offset, a request that decodes begins with its operation's header. -/
theorem encodeOfDecodeIsTheEncoding : Obligations.EncodeOfDecodeIsTheEncoding := by
  intro P e i h
  cases e with
  | access a =>
    obtain ⟨off, halign, ha, rfl⟩ := decodeAccess_eq_ok (decode_access_eq_ok.1 h)
    rw [encode_decodeOffset P a.transfer halign, ← ha]
  | request req =>
    obtain ⟨op, ws, rfl, rfl⟩ := decodeRequest_eq_ok.1 h
    exact encode_ofOp P op ws

/-- Settles O52: the words written out are the encodings of the well-formed instructions they stand for (R80, 10_state.md R27). -/
theorem writtenOutWordsDecode : Obligations.WrittenOutWordsDecode := by
  have hround := decodeOfEncodeIsTheInstruction Params.default
  exact ⟨hround (.crc [0x01]) rfl, hround (.frameWrite [0x01, 0x06, 0x0000, 0x0001]) rfl,
    hround (.frameRaw [0x01, 0x11]) rfl, hround (.wrReq 0x10) rfl, hround (.rdRspData 255) rfl⟩

end Sys2Proof.Machine
end

/-! ### Legal and illegal headers -/
section
namespace Sys2Proof.Machine

/-- An error leaves the state with its error response (60_exceptions.md R155). -/
theorem responds_raiseError (s : State) (o : Byte) (e : ErrCode) : Responds s (s.raiseError o e) (errorStatus o e) [] := by
  rw [Responds, State.raiseError, packStatus_error]

/-- A request whose header is illegal raises E_OPCODE, whatever its operands (30_encoding.md R77). -/
theorem runRequest_illegal {h : Word32} (hop : decodeHeader h = none) (ws : List Word32) (s : State) :
    runRequest h ws s = s.raiseError (opField h) .opcode :=
  runRequest_error (by simp [requestDecode, hop])

/-- A word with the value of an OP is that operation's header (R71). -/
theorem eq_header_of_toNat {h : Word32} {op : Op} (hn : h.toNat = op.code.toNat) : h = op.header :=
  BitVec.eq_of_toNat_eq (hn.trans (header_op_toNat op).symm)

/-- A word with no OP's value is an illegal header (R76, R77). -/
theorem decodeHeader_eq_none {h : Word32} (hn : ∀ op : Op, h.toNat ≠ op.code.toNat) : decodeHeader h = none := by
  cases hop : decodeHeader h with
  | none => rfl
  | some op =>
    rw [decodeHeader_eq_some.1 hop] at hn
    exact absurd (header_op_toNat op) (hn op)

/-- A REQ_LAST write whose request begins with an operation's header does what that operation does (40_register_access.md R91). -/
theorem exec_wrReqLast_eq_ofOp {s : State} {v h : Word32} {ws : List Word32} (op : Op) (hw : s.asm ++ [v] = h :: ws)
    (hn : h.toNat = op.code.toNat) : exec (.wrReqLast v) s = exec (Instr.ofOp op ws) s := by
  rw [exec_wrReqLast hw, exec_ofOp, eq_header_of_toNat hn]

/-- Settles O13: an operation's header runs it, and a word that is no operation's header is illegal. -/
theorem illegalHeaderCompletesWithEOpcode : Obligations.IllegalHeaderCompletesWithEOpcode := by
  intro s v h ws hw
  refine ⟨?_, exec_wrReqLast_eq_ofOp .crc hw, exec_wrReqLast_eq_ofOp .frameWrite hw, exec_wrReqLast_eq_ofOp .frameRead hw,
    exec_wrReqLast_eq_ofOp .frameRaw4 hw, exec_wrReqLast_eq_ofOp .frameRaw hw, exec_wrReqLast_eq_ofOp .frameAuto hw⟩
  rintro ⟨h1, h10, h11, h12, h13, h14⟩
  have hillegal : decodeHeader h = none := decodeHeader_eq_none fun op => by cases op <;> assumption
  have hstatus : errorStatus (opField h) .opcode = h.toNat % 0x100 * 0x100 + 1 := by
    have hlow : h.toNat % 0x100 = (opField h).toNat := by
      have hlt := (opField h).isLt
      have hh := header_toNat h
      omega
    rw [errorStatus, hlow]
  refine ⟨_, exec_wrReqLast hw, ?_⟩
  rw [runRequest_illegal hillegal, ← hstatus]
  exact responds_raiseError s _ _

end Sys2Proof.Machine
end

/-! ### Well-formed requests against the checks -/
section
namespace Sys2Proof.Machine

/-- Operands are all bytes exactly where none is too wide for the width 8 (R73). -/
theorem allBytes_iff {op : Op} {ws : List Word32} (hw : ∀ k, operandWidth op ws.length k = 8) :
    allBytes ws = true ↔ ¬ ∃ k, operandTooWide op ws k := by
  rw [not_tooWide_bytes hw]
  simp [allBytes]

/-- Operands have the two-field shape exactly where there are four and none is too wide for it (R73). -/
theorem isU16x2_iff {op : Op} {ws : List Word32} (hw : ∀ k, operandWidth op 4 k = if k < 2 then 8 else 16) :
    isU16x2 ws = true ↔ ws.length = 4 ∧ ¬ ∃ k, operandTooWide op ws k := by
  constructor
  · intro h
    unfold isU16x2 at h
    split at h
    · rw [not_tooWide_u16x2 hw]
      simpa [and_assoc] using h
    · cases h
  · rintro ⟨h4, hfit⟩
    obtain ⟨a, f, p, q, rfl⟩ := List.length_eq_four.1 h4
    rw [not_tooWide_u16x2 hw] at hfit
    simpa [isU16x2, and_assoc] using hfit

/-- A request is well formed where its count is admitted and no operand is too wide: R73's table against the checks of R75. -/
theorem wf_ofOp_iff (maxb : Nat) (op : Op) (ws : List Word32) :
    (Instr.ofOp op ws).wf maxb = true ↔
      ws.length ≤ maxb ∧ admitsCount op ws.length ∧ ¬ ∃ k, operandTooWide op ws k := by
  cases op with
  | crc => simp [Instr.ofOp, Instr.wf, admitsCount, allBytes_iff (op := .crc) fun _ => rfl]
  | frameWrite => simp [Instr.ofOp, Instr.wf, admitsCount, isU16x2_iff (op := .frameWrite) fun _ => rfl]
  | frameRead => simp [Instr.ofOp, Instr.wf, admitsCount, isU16x2_iff (op := .frameRead) fun _ => rfl]
  | frameRaw4 => simp [Instr.ofOp, Instr.wf, admitsCount, allBytes_iff (op := .frameRaw4) fun _ => rfl, and_assoc]
  | frameRaw => simp [Instr.ofOp, Instr.wf, admitsCount, allBytes_iff (op := .frameRaw) fun _ => rfl, and_assoc]
  | frameAuto =>
    by_cases h4 : ws.length = 4
    · have hw (k) : operandWidth .frameAuto 4 k = if k < 2 then 8 else 16 := by
        simp only [operandWidth, true_and]
        split_ifs <;> omega
      simp [Instr.ofOp, Instr.wf, admitsCount, h4, isU16x2_iff hw]
    · have hw (k) : operandWidth .frameAuto ws.length k = 8 := by simp [operandWidth, h4]
      simp [Instr.ofOp, Instr.wf, admitsCount, h4, allBytes_iff hw, and_assoc]

/-- A legal header's request completes with ECODE 0 exactly where none of the later checks fails (R75). -/
theorem ecodeField_runRequest_header_eq_zero_iff (op : Op) (ws : List Word32) (s : State) :
    ecodeField (runRequest op.header ws s).rspStatus = 0 ↔
      ws.length ≤ s.params.maxb ∧ admitsCount op ws.length ∧ ¬ ∃ k, operandTooWide op ws k := by
  have herror (e : ErrCode) (hd : requestDecode s.params.maxb op.header ws = .error e) :
      ecodeField (runRequest op.header ws s).rspStatus ≠ 0 := by
    rw [runRequest_error hd, raiseError_rspStatus, ecodeField_packStatus]
    cases e <;> decide
  by_cases hlen : ws.length ≤ s.params.maxb
  case neg => exact iff_of_false (herror _ (requestDecode_tooLong (by omega))) fun h => hlen h.1
  by_cases hcount : admitsCount op ws.length
  case neg => exact iff_of_false (herror _ (requestDecode_shape hlen hcount)) fun h => hcount h.2.1
  by_cases hwide : ∃ k, operandTooWide op ws k
  case pos => exact iff_of_false (herror _ (requestDecode_range hlen hcount hwide)) fun h => h.2.2 hwide
  obtain ⟨widths, -, hd⟩ := requestDecode_args hlen hcount hwide
  refine iff_of_true ?_ ⟨hlen, hcount, hwide⟩
  rw [runRequest_ok hd, complete_rspStatus, ecodeField_packStatus]

/-- Settles O15: both sides say that the count is admitted and no operand is too wide. -/
theorem wellFormedRequestsAreTheOnesThatSucceed : Obligations.WellFormedRequestsAreTheOnesThatSucceed := by
  intro op ws s _
  exact ⟨_, exec_ofOp op ws s, (wf_ofOp_iff _ op ws).trans (ecodeField_runRequest_header_eq_zero_iff op ws s).symm⟩

end Sys2Proof.Machine
end

/-! ### The writes that issue a request -/
section
namespace Sys2Proof.Machine

/-- A request empties `asm` whatever it held, so a word assembled before does not show in its result. -/
theorem runRequest_pushWord (h : Word32) (ws : List Word32) (s : State) (v : Word32) :
    runRequest h ws (s.pushWord v) = runRequest h ws s := by
  cases hd : requestDecode s.params.maxb h ws with
  | error e =>
    rw [runRequest_error hd, runRequest_error (s := s.pushWord v) hd]
    rfl
  | ok r =>
    rw [runRequest_ok hd, runRequest_ok (s := s.pushWord v) hd]
    rfl

/-- Issuing words runs the request of the words in `asm` and these (R70), by induction on the words: each but the last is one
more word in `asm`. -/
theorem run_issueWords (req : List Word32) (hreq : req ≠ []) {s : State} {rest : List HostEvent} {h : Word32}
    {ws : List Word32} (hp : s.pending = accessEvents (issueWords s.params req) ++ rest) (hw : s.asm ++ req = h :: ws) :
    Host.Core.run core req.length s = .next (runRequest h ws { s with pending := rest }) := by
  induction req generalizing s with
  | nil => exact absurd rfl hreq
  | cons w req ih =>
    cases req with
    | nil =>
      have hlast : step s = .next (runRequest h ws { s with pending := rest }) :=
        (step_memWrite rfl hp).trans (exec_wrReqLast hw)
      exact run_succ 0 hlast
    | cons w' req =>
      have hpush : step s = .next (State.pushWord
          { s with pending := accessEvents (issueWords s.params (w' :: req)) ++ rest } w) := step_memWrite rfl hp
      rw [List.length_cons, run_succ _ hpush, ih (by simp) rfl (by simpa using hw)]
      exact congrArg _ (runRequest_pushWord h ws { s with pending := rest } w)

/-- Settles O43: the words issued run as one request, of an operation or with an illegal header. -/
theorem issuingTheWordsExecutesTheRequest : Obligations.IssuingTheWordsExecutesTheRequest := by
  intro s req rest h ws hreq hp hw
  rw [run_issueWords req hreq hp hw]
  refine ⟨fun op hop => ?_, fun hop => ⟨_, rfl, ?_⟩⟩
  · rw [decodeHeader_eq_some.1 hop]
    exact (exec_ofOp op ws _).symm
  · rw [runRequest_illegal hop]
    exact responds_raiseError _ _ _

end Sys2Proof.Machine
end

/-! ### The reads of the registers, of zero and of RSP_DATA below LEN -/
section
namespace Sys2Proof.Machine

/-- CAPS holds MAXB, which R8 keeps within the field's eight bits (10_state.md R31). -/
theorem capsWord_toNat {P : Params} (hP : P.wf) : (capsWord P).toNat = P.maxb := by
  obtain ⟨-, -, h254⟩ := hP
  rw [capsWord, BitVec.toNat_ofNat]
  omega

/-- Settles O7: CAPS holds MAXB, and no step changes the parameters. -/
theorem rdCapsReturnsMaxb : Obligations.RdCapsReturnsMaxb :=
  ⟨fun P s hP => ⟨decode_memRead P (off := 0x010) rfl, capsWord s.params, rfl, capsWord_toNat hP⟩,
    fun _ _ h => step_params h⟩

/-- Settles O4: the value returned is the number a STAT word is. -/
theorem rdStatReturnsPendAndCount : Obligations.RdStatReturnsPendAndCount := fun P s =>
  ⟨decode_memRead P (off := 0x008) rfl, statWord s.asm, rfl, statWord_toNat s.asm⟩

/-- Settles O6: the read returns `rspStatus`, which is 0 at reset. -/
theorem rdRspStatusReturnsTheStatus : Obligations.RdRspStatusReturnsTheStatus :=
  ⟨fun P _ => ⟨decode_memRead P (off := 0x00C) rfl, rfl⟩, rfl⟩

/-- Settles O11: the offsets are those of a well-formed read of zero, which comes back from its encoding. -/
theorem readOfWriteOnlyOrReservedReturnsZero : Obligations.ReadOfWriteOnlyOrReservedReturnsZero := by
  intro P s off halign hoff
  have hwf : readsZero off = true := by
    simp only [readsZero, Bool.and_eq_true, Bool.or_eq_true, decide_eq_true_eq]
    omega
  exact ⟨decodeOfEncodeIsTheInstruction P (.rdWriteOnlyOrReserved off) hwf, rfl⟩

/-- A stored response word fits its operation's result: 16 bits after `crc`, a byte after a frame operation (10_state.md R33). -/
theorem Inv.rspData_width {s : State} (h : Inv s) {w : Word32} (hw : w ∈ s.rspData) :
    if opechoField s.rspStatus = 0x01 then w.toNat < 0x10000 else w.toNat < 0x100 := by
  obtain ⟨-, ⟨-, hd⟩ | ⟨o, e, -, hd, -⟩ | ⟨c, hs, hd⟩ | ⟨op, fr, hop, -, -, -, -, hs, hd⟩⟩ := h
  · simp [hd] at hw
  · simp [hd] at hw
  · have hcrc : opechoField s.rspStatus = 0x01 := by
      rw [hs]
      decide
    rw [hd, List.mem_singleton] at hw
    rw [if_pos hcrc, hw, BitVec.toNat_ofNat]
    have := c.isLt
    omega
  · have hframe : opechoField s.rspStatus ≠ 0x01 := by
      rw [hs, ← packStatus_ok, opechoField_packStatus]
      cases op with
      | crc => exact absurd rfl hop
      | _ => decide
    rw [hd, byteWords, List.mem_map] at hw
    obtain ⟨b, -, rfl⟩ := hw
    rw [if_neg hframe, BitVec.toNat_ofNat]
    have := b.isLt
    omega

/-- Below LEN the read of RSP_DATA returns the stored word (40_register_access.md R97). -/
theorem exec_rdRspData_of_getElem? {s : State} {i : BitVec 8} {w : Word32} (hi : i.toNat < (lenField s.rspStatus).toNat)
    (hw : s.rspData[i.toNat]? = some w) : exec (.rdRspData i) s = .next (s.returnRead w) := by
  have hword : s.rspWord i.toNat = some w := (if_pos hi).trans hw
  change execRdRspData i s = _
  simp only [execRdRspData, hword]

/-- Settles O8: the invariant stores LEN words, so below LEN there is one to return; from LEN on the read is a draw. -/
theorem rdRspDataReturnsStoredOrDrawn : Obligations.RdRspDataReturnsStoredOrDrawn := by
  intro P i s hI
  obtain ⟨hlen, -, -, -, herr, -⟩ := invariantFixesTheStatusFields s hI
  refine ⟨?_, fun hi => ?_, fun hi => ?_, fun he => ?_⟩
  · rw [← rspDataOffset_toNat]
    exact decodeOfEncodeIsTheInstruction P (.rdRspData i) rfl
  · have hlt : i.toNat < s.rspData.length := hlen ▸ hi
    have hw : s.rspData[i.toNat]? = some s.rspData[i.toNat] := List.getElem?_eq_getElem hlt
    exact ⟨_, hw, exec_rdRspData_of_getElem? hi hw, hI.rspData_width (List.getElem_mem hlt)⟩
  · exact ⟨Config.draw s.draws, s.returnDraw, exec_rdRspData_of_len_le hi, rfl, rfl, rfl, rfl⟩
  · rw [← hlen, herr he, List.length_nil]

end Sys2Proof.Machine
end

/-! ### The writes of REQ and ABORT, and ignored writes -/
section
namespace Sys2Proof.Machine

/-- ACNT counts the assembled words and saturates (10_state.md R29). -/
theorem acnt_toNat (asm : List Word32) : (acnt asm).toNat = min asm.length 0xFFFF := by
  rw [acnt, BitVec.toNat_ofNat]
  omega

/-- A request longer than MAXB operands fails the count check, unless its header already fails (60_exceptions.md R153). -/
theorem ecodeField_runRequest_of_maxb_lt (h : Word32) {ws : List Word32} {s : State} (hlen : s.params.maxb < ws.length) :
    ecodeField (runRequest h ws s).rspStatus = if (decodeHeader h).isSome then 0x2 else 0x1 := by
  cases hop : decodeHeader h with
  | none =>
    rw [runRequest_illegal hop, raiseError_rspStatus, ecodeField_packStatus]
    rfl
  | some op =>
    rw [decodeHeader_eq_some.1 hop, runRequest_error (requestDecode_tooLong hlen), raiseError_rspStatus, ecodeField_packStatus]
    rfl

/-- Settles O1: one more word is in `asm`, PEND and ACNT follow it, and an over-long request fails the count check. -/
theorem wrReqAppendsOneWord : Obligations.WrReqAppendsOneWord := by
  intro P s v
  refine ⟨decode_memWrite P (off := 0x000) v rfl, rfl, if_pos (by simp), ?_, fun h last ws hw hlen => ?_⟩
  · rw [acnt_toNat, acnt_toNat, List.length_append, List.length_singleton]
    omega
  · rw [hw, List.length_cons] at hlen
    exact ⟨_, exec_wrReqLast hw, ecodeField_runRequest_of_maxb_lt h (by omega)⟩

/-- With nothing assembled there is nothing to discard (40_register_access.md R92). -/
theorem discardRequest_eq_self {s : State} (h : s.asm = []) : s.discardRequest = s := by
  rw [State.discardRequest, ← h]

/-- Settles O2: ABORT discards the request, which leaves a state with an empty `asm` as it was. -/
theorem wrAbortDiscardsTheRequest : Obligations.WrAbortDiscardsTheRequest := fun P _ v =>
  ⟨decode_memWrite P (off := 0x014) v rfl, rfl, by decide, fun h => congrArg _ (discardRequest_eq_self h)⟩

/-- Settles O3: the offsets are those of a well-formed ignored write, which comes back from its encoding. -/
theorem ignoredWriteChangesNothing : Obligations.IgnoredWriteChangesNothing := by
  intro P s off v halign hoff
  have hwf : ignoresWrites off = true := by
    simp only [ignoresWrites, Bool.and_eq_true, Bool.or_eq_true, decide_eq_true_eq]
    omega
  exact ⟨decodeOfEncodeIsTheInstruction P (.wrReadOnlyOrReserved off v) hwf, rfl⟩

/-- Settles O32: each of the three writes changes `asm` at most. -/
theorem writeFrame : Obligations.WriteFrame := by
  rintro i v off s t (rfl | rfl | rfl) h <;> injection h with h <;> subst h
  all_goals exact ⟨rfl, rfl, rfl, rfl, rfl, rfl⟩

end Sys2Proof.Machine
end

/-! ### The write of REQ_LAST -/
section
namespace Sys2Proof.Machine

/-- Settles O12: the request completes with its operation's data, or raises the error that its words decode to. -/
theorem wrReqLastExecutesTheRequest : Obligations.WrReqLastExecutesTheRequest := by
  intro P s v h ws hw
  refine ⟨decode_memWrite P (off := 0x004) v rfl, fun op args hd => ?_, fun e hd => ?_⟩
  · have hexec : exec (.wrReqLast v) s = .next (s.complete (opField h) (operation op args)) := by
      rw [exec_wrReqLast hw, runRequest_ok hd]
    refine ⟨operation op args, _, by cases op <;> rfl, hexec, rfl, rfl, fun hlen => ?_, ?_, ?_, ?_, rfl, rfl, rfl, rfl⟩
    · rw [complete_rspStatus, lenField_packStatus]
      exact Nat.mod_eq_of_lt hlen
    · exact opechoField_packStatus _ _ _
    · exact reservedField_packStatus _ _ _
    · exact ecodeField_packStatus _ _ _
  · refine ⟨_, exec_wrReqLast hw, ?_⟩
    rw [runRequest_error hd]
    exact responds_raiseError s _ e

/-- A request empties `asm` and leaves the host side (40_register_access.md R91, 60_exceptions.md R156). -/
theorem runRequest_frame (h : Word32) (ws : List Word32) (s : State) :
    (runRequest h ws s).asm = [] ∧ SameHostSide s (runRequest h ws s) :=
  ⟨runRequest_asm h ws s, runRequest_params h ws s, runRequest_pending h ws s, runRequest_observed h ws s,
    runRequest_draws h ws s⟩

/-- Settles O31: a request operation and `wr REQ_LAST` each run one request. -/
theorem requestFrame : Obligations.RequestFrame := by
  refine ⟨fun op ws s t h => ?_, fun v s t h => ?_⟩
  · rw [exec_ofOp] at h
    injection h with h
    exact h ▸ runRequest_frame op.header ws s
  · obtain ⟨hd, ws, hw⟩ := request_nonempty s.asm v
    rw [exec_wrReqLast hw] at h
    injection h with h
    exact h ▸ runRequest_frame hd ws s

/-- Settles O35: words that decode begin with their operation's header, which is what the REQ_LAST write then runs. -/
theorem reqLastStepRunsTheRequestOperation : Obligations.ReqLastStepRunsTheRequestOperation := by
  intro s v rest i hp hd
  obtain ⟨op, ws, hw, rfl⟩ := decodeRequest_eq_ok.1 hd
  calc step s = exec (.wrReqLast v) { s with pending := rest } := step_memWrite (off := 0x004) rfl hp
    _ = exec (Instr.ofOp op ws) { s with pending := rest } := exec_wrReqLast_eq_ofOp op hw (header_op_toNat op)

end Sys2Proof.Machine
end

/-! ### The laws of the CRC -/
section
namespace Sys2Proof.Machine

/-- One bit iteration as one exclusive or: the polynomial is taken where the low bit is set (41_checksum.md R101). -/
theorem crcStep1_eq_xor (a : U16) : crcStep1 a = (a >>> 1) ^^^ (if a.getLsbD 0 then crcPoly else 0) := by
  unfold crcStep1
  split_ifs
  · rfl
  · exact (BitVec.xor_zero (x := a >>> 1)).symm

/-- One bit iteration is linear (R107): the polynomial is taken twice, and cancels, where both low bits are set. -/
theorem crcStep1_xor (a b : U16) : crcStep1 (a ^^^ b) = crcStep1 a ^^^ crcStep1 b := by
  have hpoly : (if (a ^^^ b).getLsbD 0 then crcPoly else 0) =
      (if a.getLsbD 0 then crcPoly else 0) ^^^ (if b.getLsbD 0 then crcPoly else 0) := by
    rw [BitVec.getLsbD_xor]
    cases a.getLsbD 0 <;> cases b.getLsbD 0 <;> decide
  rw [crcStep1_eq_xor, crcStep1_eq_xor a, crcStep1_eq_xor b, hpoly, BitVec.ushiftRight_xor_distrib]
  ac_rfl

/-- Any number of bit iterations is linear (R107). -/
theorem crcSteps_xor (n : Nat) (a b : U16) : crcSteps n (a ^^^ b) = crcSteps n a ^^^ crcSteps n b := by
  induction n generalizing a b with
  | zero => rfl
  | succ n ih => rw [crcSteps, crcStep1_xor, ih, crcSteps, crcSteps]

/-- While the low bits are clear the iterations only shift: `n` of them never take the polynomial. -/
theorem crcSteps_eq_ushiftRight {n : Nat} {a : U16} (h : ∀ i < n, a.getLsbD i = false) : crcSteps n a = a >>> n := by
  induction n generalizing a with
  | zero => exact (BitVec.ushiftRight_zero a).symm
  | succ n ih =>
    have hstep : crcStep1 a = a >>> 1 := if_neg (ne_true_of_eq_false (h 0 n.succ_pos))
    have hlow : ∀ i < n, (a >>> 1).getLsbD i = false := fun i hi => by
      rw [BitVec.getLsbD_ushiftRight]
      exact h (1 + i) (by omega)
    rw [crcSteps, hstep, ih hlow, ← BitVec.shiftRight_add, Nat.add_comm]

/-- A 16-bit value without its low byte, which the exclusive or takes away, shifts out in eight iterations. -/
theorem crcSteps_xor_lowByte (a : U16) : crcSteps 8 (a ^^^ (a.extractLsb' 0 8).setWidth 16) = a >>> 8 := by
  rw [crcSteps_eq_ushiftRight]
  · ext i hi
    simp
  · intro i hi
    have h16 : i < 16 := by omega
    simp [hi, h16]

/-- The CRC register takes a sequence in two parts, one after the other (R107). -/
theorem computeCrc_append (xs ys : List Byte) : computeCrc (xs ++ ys) = ys.foldl crcByte (computeCrc xs) :=
  List.foldl_append

/-- A value's own low byte shifts its high byte down, and its high byte then clears it (R107). -/
theorem foldl_crcByte_le16 (c : U16) : (le16 c).foldl crcByte c = 0 := by
  have hhigh : (c.extractLsb' 8 8).setWidth 16 = c >>> 8 := by
    apply BitVec.eq_of_toNat_eq
    have := c.isLt
    rw [highByte_eq, BitVec.toNat_setWidth, BitVec.toNat_ofNat, BitVec.toNat_ushiftRight, Nat.shiftRight_eq_div_pow]
    omega
  calc (le16 c).foldl crcByte c = crcByte (crcByte c (c.extractLsb' 0 8)) (c.extractLsb' 8 8) := rfl
    _ = crcByte (c >>> 8) (c.extractLsb' 8 8) := congrArg (crcByte · _) (crcSteps_xor_lowByte c)
    _ = crcSteps 8 0 := by
      rw [crcByte, hhigh, BitVec.xor_self]
      rfl
    _ = 0 := by decide

/-- The residue: a sequence followed by its own CRC has the CRC 0 (R107). -/
theorem computeCrc_append_le16 (bs : List Byte) : computeCrc (bs ++ le16 (computeCrc bs)) = 0 := by
  rw [computeCrc_append, foldl_crcByte_le16]

/-- A frame that ends in the CRC of the rest has the CRC 0 (R109). -/
theorem computeCrc_of_wellSealed {fr : List Byte} (h : WellSealed fr) : computeCrc fr = 0 := by
  rw [← List.take_append_drop (fr.length - 2) fr, h]
  exact computeCrc_append_le16 _

/-- Settles O20: the linear iterations, the residue and the fold over the second part. -/
theorem crcObeysItsLaws : Obligations.CrcObeysItsLaws :=
  ⟨fun a b => ⟨crcStep1_xor a b, crcSteps_xor 8 a b⟩, computeCrc_append_le16, computeCrc_append⟩

/-- Settles O17: the low bit is the value's parity, a shift its half, and the bytes are folded in order. -/
theorem crcIsTheModbusCrc : Obligations.CrcIsTheModbusCrc := by
  refine ⟨fun acc => ?_, fun acc b => ?_, rfl, fun bs b => computeCrc_append bs [b]⟩
  · have hlow : acc.getLsbD 0 = decide (acc.toNat % 2 = 1) := by simp [BitVec.getLsbD]
    have hhalf : (acc >>> 1).toNat = acc.toNat / 2 := by rw [BitVec.toNat_ushiftRight, Nat.shiftRight_one]
    simp only [crcStep1, hlow, decide_eq_true_eq]
    split_ifs
    · rw [BitVec.toNat_xor, hhalf]
      rfl
    · exact hhalf
  · have hxor : acc ^^^ b.setWidth 16 = BitVec.ofNat 16 (acc.toNat ^^^ b.toNat) := by
      rw [BitVec.ofNat_xor, BitVec.ofNat_toNat, BitVec.ofNat_toNat, BitVec.setWidth_eq]
    rw [crcByte, hxor]
    rfl

/-- The low byte of a 16-bit value, as the number it is. -/
theorem setWidth_lowByte (a : U16) : (a.extractLsb' 0 8).setWidth 16 = BitVec.ofNat 16 (a.toNat % 256) := by
  apply BitVec.eq_of_toNat_eq
  simp [BitVec.extractLsb'_toNat]

/-- A byte XORed in leaves the high byte of the accumulator. -/
theorem xor_byte_ushiftRight (acc : U16) (b : Byte) : (acc ^^^ b.setWidth 16) >>> 8 = acc >>> 8 := by
  have hb : b.setWidth 16 >>> 8 = (0 : U16) := by
    ext i hi
    simp
  rw [BitVec.ushiftRight_xor_distrib, hb]
  exact BitVec.xor_zero

/-- Settles O19: the iterations are linear, so the low byte's table entry and the shifted high byte add up. -/
theorem tableDrivenFormIsEqual : Obligations.TableDrivenFormIsEqual := by
  refine ⟨fun acc b => ?_, by decide, by decide, by decide, by decide, by decide, by decide⟩
  have hsplit (x : U16) : crcSteps 8 x = (x >>> 8) ^^^ crcSteps 8 (BitVec.ofNat 16 (x.toNat % 256)) := by
    rw [← crcSteps_xor_lowByte, ← setWidth_lowByte, ← crcSteps_xor, BitVec.xor_assoc, BitVec.xor_self]
    exact congrArg _ BitVec.xor_zero.symm
  rw [crcByte, hsplit, xor_byte_ushiftRight]

end Sys2Proof.Machine
end

/-! ### The CRC request -/
section
namespace Sys2Proof.Machine

/-- A request operation whose words do not decode answers the error response, `status` being its status word's number
(60_exceptions.md R155). -/
theorem exec_ofOp_error {op : Op} {ws : List Word32} {s : State} {e : ErrCode} {status : Nat}
    (hstatus : errorStatus op.code e = status) (hd : requestDecode s.params.maxb op.header ws = .error e) :
    ∃ t, exec (Instr.ofOp op ws) s = .next t ∧ Responds s t status [] := by
  refine ⟨_, exec_ofOp op ws s, ?_⟩
  rw [← hstatus, runRequest_error hd, opField_header]
  exact responds_raiseError s op.code e

/-- A header with an operation's OP and reserved bits that are not zero is illegal (30_encoding.md R71, R77). -/
theorem exec_wrReqLast_reservedBits {s : State} {v h : Word32} {ws : List Word32} {op : Op} {status : Nat}
    (hstatus : errorStatus op.code .opcode = status) (hw : s.asm ++ [v] = h :: ws)
    (hop : h.toNat % 0x100 = op.code.toNat) (hr : 0x100 ≤ h.toNat) :
    ∃ t, exec (.wrReqLast v) s = .next t ∧ Responds s t status [] := by
  have hillegal : decodeHeader h = none := decodeHeader_eq_none fun op' => by
    have := op'.code.isLt
    omega
  have hfield : opField h = op.code := by
    apply BitVec.eq_of_toNat_eq
    have := (opField h).isLt
    have := header_toNat h
    omega
  refine ⟨_, exec_wrReqLast hw, ?_⟩
  rw [← hstatus, runRequest_illegal hillegal, hfield]
  exact responds_raiseError s op.code .opcode

/-- A word above 0xFF is too wide where every declared width is 8 (60_exceptions.md R152). -/
theorem exists_operandTooWide_of_byteWidths {op : Op} {ws : List Word32} (hw : ∀ k, operandWidth op ws.length k = 8)
    (h : ∃ w ∈ ws, 0xFF < w.toNat) : ∃ k, operandTooWide op ws k := by
  by_contra hfit
  obtain ⟨w, hm, hlt⟩ := h
  have := (not_tooWide_bytes hw).1 hfit w hm
  omega

/-- Operand words that are byte values decode to as many arguments of width 8 (30_encoding.md R74). -/
theorem requestDecode_crc {m : Nat} {ws : List Word32} (hlen : ws.length ≤ m) (hb : ∀ w ∈ ws, w.toNat ≤ 0xFF) :
    requestDecode m Op.crc.header ws = .ok (.crc, ws.map fun w => argOf w 8) := by
  have hfit : ¬ ∃ k, operandTooWide .crc ws k :=
    (not_tooWide_bytes fun _ => rfl).2 fun w hm => Nat.lt_succ_of_le (hb w hm)
  obtain ⟨widths, hs, hd⟩ := requestDecode_args (op := .crc) hlen trivial hfit
  injection hs with hs
  rw [hd, ← hs, zipWith_argOf_bytes]

/-- The arguments' bytes are the operands' values. -/
theorem map_byteOf_argOf (ws : List Word32) :
    (ws.map fun w => argOf w 8).map byteOf = ws.map fun w => byteVal w.toNat := by
  simp [byteOf_argOf]

/-- `crc` of byte operands answers their CRC (41_checksum.md R104). -/
theorem exec_crc_bytes {s : State} {ws : List Word32} (hlen : ws.length ≤ s.params.maxb) (hb : ∀ w ∈ ws, w.toNat ≤ 0xFF) :
    ∃ t, exec (.crc ws) s = .next t ∧
      Responds s t 0x00010100 [BitVec.ofNat 32 (computeCrc (ws.map fun w => byteVal w.toNat)).toNat] := by
  refine ⟨_, exec_ofOp .crc ws s, ?_⟩
  have hstatus : packStatus 1 Op.crc.code 0 = BitVec.ofNat 32 0x00010100 := by decide
  have hdata : operation .crc (ws.map fun w => argOf w 8) =
      [BitVec.ofNat 32 (computeCrc (ws.map fun w => byteVal w.toNat)).toNat] := by
    rw [operation, crcOp, map_byteOf_argOf, BitVec.ofNat_toNat]
  rw [runRequest_ok (requestDecode_crc hlen hb), opField_header, hdata, Responds, State.complete, List.length_singleton,
    hstatus]

/-- A frame's response words are byte values (10_state.md R33). -/
theorem byteWords_toNat_le {bs : List Byte} {w : Word32} (hw : w ∈ byteWords bs) : w.toNat ≤ 0xFF := by
  obtain ⟨b, -, rfl⟩ := List.mem_map.1 hw
  rw [BitVec.toNat_ofNat]
  omega

/-- The values of a frame's response words are its bytes. -/
theorem map_byteVal_byteWords (bs : List Byte) : (byteWords bs).map (fun w => byteVal w.toNat) = bs := by
  rw [byteWords, List.map_map]
  refine (List.map_congr_left fun b _ => ?_).trans (List.map_id bs)
  apply BitVec.eq_of_toNat_eq
  simp

/-- Settles O18: byte operands answer their CRC, 0 over a sealed frame, and each failing check answers its error. -/
theorem crcRequestReturnsTheCrc : Obligations.CrcRequestReturnsTheCrc := by
  refine ⟨fun s ws => exec_crc_bytes, fun s => ?_, fun s ws hlen => ?_, fun s ws hlen hwide => ?_,
    fun s v h ws hw hop hr => ?_, fun s fr hlen _ hseal => ?_⟩
  · exact exec_crc_bytes (ws := []) (Nat.zero_le _) (by simp)
  · exact exec_ofOp_error (op := .crc) (by decide) (requestDecode_tooLong hlen)
  · have hk := exists_operandTooWide_of_byteWidths (op := .crc) (fun _ => rfl) hwide
    exact exec_ofOp_error (op := .crc) (by decide) (requestDecode_range hlen trivial hk)
  · exact exec_wrReqLast_reservedBits (op := .crc) (by decide) hw hop hr
  · have hcrc := exec_crc_bytes (s := s) ((byteWords_length fr).trans_le hlen) fun w => byteWords_toNat_le
    rwa [map_byteVal_byteWords, computeCrc_of_wellSealed hseal] at hcrc

end Sys2Proof.Machine
end

/-! ### The CRC of every frame -/
section
namespace Sys2Proof.Machine

/-- No error class has the code 0 (60_exceptions.md R151). -/
theorem errorCode_ne_zero (e : ErrCode) : errorCode e ≠ 0 := by cases e <;> decide

/-- A frame operation that completes with ECODE 0 answers the words of a sealed body (42_frame.md R128). -/
theorem exists_sealFrame_of_ecode_zero {op : Op} {ws : List Word32} {s : State} (hop : op ≠ .crc)
    (he : ecodeField (runRequest op.header ws s).rspStatus = 0) :
    ∃ body, (runRequest op.header ws s).rspData = byteWords (sealFrame body) := by
  obtain ⟨op', args, hd, hr⟩ | ⟨e, -, hr⟩ := runRequest_cases op.header ws s
  · obtain ⟨hheader, -⟩ := requestDecode_eq_ok hd
    obtain rfl : op = op' := by simpa using congrArg decodeHeader hheader
    obtain ⟨-, -, hcount⟩ := requestDecode_ok_length hd
    obtain ⟨body, hbody, -⟩ := operation_eq_frameWords_sealFrame hop hcount
    exact ⟨body, by rw [hr, complete_rspData, hbody, frameWords_eq_byteWords]⟩
  · rw [hr, raiseError_rspStatus, ecodeField_packStatus] at he
    exact absurd he (errorCode_ne_zero e)

/-- Settles O26: the response is a sealed frame, which ends in its body's CRC and has the CRC 0. -/
theorem everyFrameCarriesItsCrc : Obligations.EveryFrameCarriesItsCrc := by
  intro op ws s t hop h he
  rw [exec_ofOp] at h
  injection h with h
  subst h
  obtain ⟨body, hdata⟩ := exists_sealFrame_of_ecode_zero hop he
  have hseal := wellSealed_sealFrame body
  exact ⟨sealFrame body, hdata, hseal.symm, computeCrc_of_wellSealed hseal⟩

end Sys2Proof.Machine
end

/-! ### Independence of requests -/
section
namespace Sys2Proof.Machine

/-- The response is a function of the request's words and the parameters (41_checksum.md R108). -/
theorem runRequest_sameResponse (h : Word32) (ws : List Word32) {s t : State} (hP : s.params = t.params) :
    (runRequest h ws s).rspStatus = (runRequest h ws t).rspStatus ∧
      (runRequest h ws s).rspData = (runRequest h ws t).rspData := by
  obtain ⟨op, args, hd, hs⟩ | ⟨e, hd, hs⟩ := runRequest_cases h ws s <;> rw [hs] <;> rw [hP] at hd
  · rw [runRequest_ok hd]
    exact ⟨rfl, rfl⟩
  · rw [runRequest_error hd]
    exact ⟨rfl, rfl⟩

/-- With nothing assembled, the writes that issue a request instruction run its words alone (30_encoding.md R70, R79). -/
theorem run_issue {i : Instr} {h : Word32} {ws : List Word32} {s : State} {rest : List HostEvent}
    (henc : encode s.params i = .request (h :: ws)) (ha : s.asm = [])
    (hp : s.pending = accessEvents (issue s.params i) ++ rest) :
    Host.Core.run core (h :: ws).length s = .next (runRequest h ws { s with pending := rest }) := by
  have hissue : issue s.params i = issueWords s.params (h :: ws) := by rw [issue, henc]
  refine run_issueWords (h :: ws) (List.cons_ne_nil h ws) (hp.trans ?_) ?_
  · rw [hissue]
  · rw [ha, List.nil_append]

/-- Settles O30: both runs execute the request issued, whose response the two states' equal parameters fix. -/
theorem responseDependsOnTheRequestAlone : Obligations.ResponseDependsOnTheRequestAlone := by
  intro i req s t rs rt hP henc hs ht hps hpt
  obtain ⟨op, ws, -, rfl⟩ := encode_request henc
  exact ⟨_, _, run_issue henc hs hps, run_issue (hP ▸ henc) ht hpt, runRequest_sameResponse op.header ws hP⟩

end Sys2Proof.Machine
end

/-! ### A frame is its operands in order, sealed -/
section
namespace Sys2Proof.Machine

/-- An operand of the given width as frame bytes: one byte, or a 16-bit value high byte first (42_frame.md R123). -/
def operandBytes (width : Nat) (w : Word32) : List Byte :=
  if width = 16 then [byteVal (w.toNat / 256), byteVal (w.toNat % 256)] else [byteVal w.toNat]

/-- Two byte operands and two 16-bit operands, each of these high byte first (R123). -/
abbrev twoFieldBytes (a f p q : Word32) : List Byte :=
  [byteVal a.toNat, byteVal f.toNat, byteVal (p.toNat / 256), byteVal (p.toNat % 256), byteVal (q.toNat / 256),
    byteVal (q.toNat % 256)]

/-- The body of a frame operation's frame: the operands in order, each of its declared width (R123 to R129).
`runRequest_eq_complete_frame` ties it to the model. -/
def frameBody (op : Op) (ws : List Word32) : List Byte :=
  (ws.mapIdx fun k w => operandBytes (operandWidth op ws.length k) w).flatten

theorem flatten_mapIdx_singleton {α β : Type} (g : α → β) (l : List α) :
    (l.mapIdx fun _ x => [g x]).flatten = l.map g := by
  induction l with
  | nil => rfl
  | cons x l ih => rw [List.mapIdx_cons, List.flatten_cons, ih, List.map_cons, List.singleton_append]

/-- Operands of width 8 are taken verbatim. -/
theorem frameBody_bytes {op : Op} {ws : List Word32} (hw : ∀ k, operandWidth op ws.length k = 8) :
    frameBody op ws = ws.map fun w => byteVal w.toNat := by
  have hserial : frameBody op ws = (ws.mapIdx fun _ w => [byteVal w.toNat]).flatten := by
    simp only [frameBody, hw]
    rfl
  rw [hserial, flatten_mapIdx_singleton]

/-- In the two-field shape the parameters are big-endian. -/
theorem frameBody_twoFields {op : Op} {a f p q : Word32} (hw : ∀ k, operandWidth op 4 k = if k < 2 then 8 else 16) :
    frameBody op [a, f, p, q] = twoFieldBytes a f p q := by
  simp [frameBody, operandBytes, hw]

/-- With two parameters `frame.auto` declares the widths of `frame.write` (30_encoding.md R73). -/
theorem operandWidth_frameAuto_four (k : Nat) : operandWidth .frameAuto 4 k = if k < 2 then 8 else 16 := by
  simp only [operandWidth, true_and]
  split_ifs <;> omega

/-- With any other number of parameters `frame.auto` declares bytes (R73). -/
theorem operandWidth_frameAuto_of_ne {n : Nat} (hn : n ≠ 4) (k : Nat) : operandWidth .frameAuto n k = 8 := by
  simp [operandWidth, hn]

/-- `frame.raw4` is `frame.raw` on four payload bytes (42_frame.md R127). -/
theorem frameRaw4Op_eq_frameRawOp {args : List Word32} (h : args.length = 6) : frameRaw4Op args = frameRawOp args := by
  match args, h with
  | [_, _, _, _, _, _], _ => rfl

/-- `frame.raw` seals its operands' bytes. -/
theorem frameRawOp_args {ws : List Word32} (h : 2 ≤ ws.length) :
    frameRawOp (List.zipWith argOf ws (List.replicate ws.length 8)) =
      frameWords (sealFrame (ws.map fun w => byteVal w.toNat)) := by
  rw [zipWith_argOf_bytes, frameRawOp, layoutBytes_args ws h]

/-- `frame.write` seals its address, its function code and its two parameters, high byte first. -/
theorem frameWriteOp_args {a f p q : Word32} (hp : p.toNat < 65536) (hq : q.toNat < 65536) :
    frameWriteOp [argOf a 8, argOf f 8, argOf p 16, argOf q 16] = frameWords (sealFrame (twoFieldBytes a f p q)) := by
  have hlayout : layoutU16x2 (byteOf (argOf a 8)) (byteOf (argOf f 8)) (halfOf (argOf p 16)) (halfOf (argOf q 16)) =
      twoFieldBytes a f p q := by
    rw [layoutU16x2, byteOf_argOf, byteOf_argOf, be16_halfOf_argOf p hp, be16_halfOf_argOf q hq]
    rfl
  exact congrArg (fun body => frameWords (sealFrame body)) hlayout

/-- An operation with the two-field shape that answers what `frame.write` answers seals its body. -/
theorem operation_twoFields {op : Op} {ws : List Word32} (hw : ∀ k, operandWidth op 4 k = if k < 2 then 8 else 16)
    (hop : ∀ args : List Word32, args.length = 4 → operation op args = frameWriteOp args) (h4 : ws.length = 4)
    (hfit : ¬ ∃ k, operandTooWide op ws k) :
    operation op (List.zipWith argOf ws [8, 8, 16, 16]) = frameWords (sealFrame (frameBody op ws)) := by
  obtain ⟨a, f, p, q, rfl⟩ := List.length_eq_four.1 h4
  obtain ⟨-, -, hp, hq⟩ := (not_tooWide_u16x2 hw).1 hfit
  rw [hop _ rfl, frameBody_twoFields hw]
  exact frameWriteOp_args hp hq

/-- An operation on byte operands that answers what `frame.raw` answers seals its body. -/
theorem operation_bytes {op : Op} {ws : List Word32} (hw : ∀ k, operandWidth op ws.length k = 8)
    (hop : ∀ args : List Word32, args.length = ws.length → operation op args = frameRawOp args) (h2 : 2 ≤ ws.length) :
    operation op (List.zipWith argOf ws (List.replicate ws.length 8)) = frameWords (sealFrame (frameBody op ws)) := by
  rw [hop _ (by simp), frameRawOp_args h2, frameBody_bytes hw]

/-- On operands that `shape` admits and that fit, a frame operation seals its body (R124 to R129). -/
theorem operation_args_eq_frame {op : Op} {ws : List Word32} {widths : List Nat} (hop : op ≠ .crc)
    (hs : shape op ws.length = some widths) (hfit : ¬ ∃ k, operandTooWide op ws k) :
    operation op (List.zipWith argOf ws widths) = frameWords (sealFrame (frameBody op ws)) := by
  cases op <;> simp only [shape, Option.ite_none_right_eq_some, Option.some.injEq] at hs
  case crc => exact absurd rfl hop
  case frameWrite =>
    obtain ⟨h4, rfl⟩ := hs
    exact operation_twoFields (fun _ => rfl) (fun _ _ => rfl) h4 hfit
  case frameRead =>
    obtain ⟨h4, rfl⟩ := hs
    exact operation_twoFields (fun _ => rfl) (fun _ _ => rfl) h4 hfit
  case frameRaw4 =>
    obtain ⟨h6, rfl⟩ := hs
    rw [← h6]
    exact operation_bytes (fun _ => rfl) (fun _ ha => frameRaw4Op_eq_frameRawOp (ha.trans h6)) (by omega)
  case frameRaw =>
    obtain ⟨h2, rfl⟩ := hs
    exact operation_bytes (fun _ => rfl) (fun _ _ => rfl) h2
  case frameAuto =>
    split_ifs at hs with h4 h2 <;> injection hs with hs <;> subst hs
    · exact operation_twoFields operandWidth_frameAuto_four (fun _ => frameAutoOp_eq_frameWriteOp) h4 hfit
    · exact operation_bytes (operandWidth_frameAuto_of_ne h4) (fun _ ha => frameAutoOp_eq_frameRawOp (ha ▸ h4)) h2

/-- A well-formed frame request completes with its sealed body as the response (40_register_access.md R91, 42_frame.md R122). -/
theorem runRequest_eq_complete_frame {op : Op} {ws : List Word32} {s : State} (hop : op ≠ .crc)
    (hlen : ws.length ≤ s.params.maxb) (hcount : admitsCount op ws.length) (hfit : ¬ ∃ k, operandTooWide op ws k) :
    runRequest op.header ws s = s.complete op.code (byteWords (sealedBytes (frameBody op ws))) := by
  obtain ⟨widths, hs, hd⟩ := requestDecode_args hlen hcount hfit
  rw [runRequest_ok hd, opField_header, operation_args_eq_frame hop hs hfit, frameWords_eq_byteWords,
    sealFrame_eq_sealedBytes]

@[simp] theorem sealedBytes_length (body : List Byte) : (sealedBytes body).length = body.length + 2 := by
  simp [sealedBytes]

/-- A request that completes with a sealed body has LEN two above the body's length, its OPECHO and ECODE 0. -/
theorem responds_complete_sealedBytes (s : State) (o : Byte) (body : List Byte) :
    Responds s (s.complete o (byteWords (sealedBytes body))) ((body.length + 2) * 0x10000 + o.toNat * 0x100)
      (byteWords (sealedBytes body)) := by
  rw [Responds, State.complete, packStatus_ok, byteWords_length, sealedBytes_length]

theorem Responds.rspData_eq {s t : State} {status : Nat} {data : List Word32} (h : Responds s t status data) :
    t.rspData = data := by
  rw [h]

end Sys2Proof.Machine
end

/-! ### The five frame operations -/
section
namespace Sys2Proof.Machine

/-- A legal MAXB admits six operand words (00_scope.md R8). -/
theorem le_maxb_of_wf {P : Params} {n : Nat} (hP : P.wf) (hn : n ≤ 6) : n ≤ P.maxb :=
  hn.trans hP.2.1

/-- A frame operation on byte operands frames them verbatim (42_frame.md R126, R127, R129). -/
theorem exec_frame_bytes {op : Op} {s : State} {ws : List Word32} {status : Nat}
    (hstatus : (ws.length + 2) * 0x10000 + op.code.toNat * 0x100 = status) (hop : op ≠ .crc)
    (hw : ∀ k, operandWidth op ws.length k = 8) (hcount : admitsCount op ws.length) (hlen : ws.length ≤ s.params.maxb)
    (hb : ∀ w ∈ ws, w.toNat ≤ 0xFF) :
    ∃ t, exec (Instr.ofOp op ws) s = .next t ∧
      Responds s t status (byteWords (sealedBytes (ws.map fun w => byteVal w.toNat))) := by
  have hfit := (not_tooWide_bytes hw).2 fun w hm => Nat.lt_succ_of_le (hb w hm)
  refine ⟨_, exec_ofOp op ws s, ?_⟩
  rw [runRequest_eq_complete_frame hop hlen hcount hfit, frameBody_bytes hw, ← hstatus]
  simpa only [List.length_map] using responds_complete_sealedBytes s op.code (ws.map fun w => byteVal w.toNat)

/-- A word above 0xFF among byte operands is E_RANGE. -/
theorem exec_bytes_range {op : Op} {s : State} {ws : List Word32} {status : Nat} (hstatus : errorStatus op.code .range = status)
    (hw : ∀ k, operandWidth op ws.length k = 8) (hcount : admitsCount op ws.length) (hlen : ws.length ≤ s.params.maxb)
    (hwide : ∃ w ∈ ws, 0xFF < w.toNat) : ∃ t, exec (Instr.ofOp op ws) s = .next t ∧ Responds s t status [] :=
  exec_ofOp_error hstatus (requestDecode_range hlen hcount (exists_operandTooWide_of_byteWidths hw hwide))

/-- A frame operation on two 16-bit parameters frames them high byte first (R124, R125, R129). -/
theorem exec_frame_twoFields {op : Op} {s : State} {a f p q : Word32} {status : Nat}
    (hstatus : (6 + 2) * 0x10000 + op.code.toNat * 0x100 = status) (hop : op ≠ .crc)
    (hw : ∀ k, operandWidth op 4 k = if k < 2 then 8 else 16) (hcount : admitsCount op 4) (hP : s.params.wf)
    (ha : a.toNat ≤ 0xFF) (hf : f.toNat ≤ 0xFF) (hp : p.toNat ≤ 0xFFFF) (hq : q.toNat ≤ 0xFFFF) :
    ∃ t, exec (Instr.ofOp op [a, f, p, q]) s = .next t ∧
      Responds s t status (byteWords (sealedBytes (twoFieldBytes a f p q))) := by
  have hlen : [a, f, p, q].length ≤ s.params.maxb := le_maxb_of_wf hP (by decide : 4 ≤ 6)
  have hfit : ¬ ∃ k, operandTooWide op [a, f, p, q] k := (not_tooWide_u16x2 hw).2 (by omega)
  refine ⟨_, exec_ofOp op _ s, ?_⟩
  rw [runRequest_eq_complete_frame hop hlen hcount hfit, frameBody_twoFields hw, ← hstatus]
  exact responds_complete_sealedBytes s op.code _

/-- In the two-field shape a word wider than its field is E_RANGE. -/
theorem exec_twoFields_range {op : Op} {s : State} {a f p q : Word32} {status : Nat}
    (hstatus : errorStatus op.code .range = status) (hw : ∀ k, operandWidth op 4 k = if k < 2 then 8 else 16)
    (hcount : admitsCount op 4) (hP : s.params.wf)
    (hwide : 0xFF < a.toNat ∨ 0xFF < f.toNat ∨ 0xFFFF < p.toNat ∨ 0xFFFF < q.toNat) :
    ∃ t, exec (Instr.ofOp op [a, f, p, q]) s = .next t ∧ Responds s t status [] := by
  have hlen : [a, f, p, q].length ≤ s.params.maxb := le_maxb_of_wf hP (by decide : 4 ≤ 6)
  refine exec_ofOp_error hstatus (requestDecode_range hlen hcount ?_)
  by_contra hfit
  have := (not_tooWide_u16x2 hw).1 hfit
  omega

/-- Settles O21: the frame of two 16-bit parameters, and the error of each failing check. -/
theorem frameWriteBuildsTheFrame : Obligations.FrameWriteBuildsTheFrame := by
  refine ⟨fun s a f p0 p1 => ?_, fun s ws hlen => ?_, fun s ws hlen hcount => ?_, fun s a f p0 p1 => ?_,
    fun s v h ws hw hop hr => ?_⟩
  · exact exec_frame_twoFields (op := .frameWrite) (by decide) (by decide) (fun _ => rfl) rfl
  · exact exec_ofOp_error (op := .frameWrite) (by decide) (requestDecode_tooLong hlen)
  · exact exec_ofOp_error (op := .frameWrite) (by decide) (requestDecode_shape hlen hcount)
  · exact exec_twoFields_range (op := .frameWrite) (by decide) (fun _ => rfl) rfl
  · exact exec_wrReqLast_reservedBits (op := .frameWrite) (by decide) hw hop hr

/-- Settles O22: the frame of `frame.write` on the same operands, and the error of each failing check. -/
theorem frameReadBuildsTheFrame : Obligations.FrameReadBuildsTheFrame := by
  refine ⟨fun s a f st q hP ha hf hst hq => ?_, fun s ws hlen => ?_, fun s ws hlen hcount => ?_, fun s a f st q => ?_,
    fun s v h ws hw hop hr => ?_⟩
  · obtain ⟨t, ht, hrt⟩ :=
      exec_frame_twoFields (op := .frameRead) rfl (by decide) (fun _ => rfl) rfl hP ha hf hst hq
    obtain ⟨u, hu, hru⟩ :=
      exec_frame_twoFields (op := .frameWrite) rfl (by decide) (fun _ => rfl) rfl hP ha hf hst hq
    exact ⟨t, u, ht, hu, hrt.rspData_eq.trans hru.rspData_eq.symm, hrt⟩
  · exact exec_ofOp_error (op := .frameRead) (by decide) (requestDecode_tooLong hlen)
  · exact exec_ofOp_error (op := .frameRead) (by decide) (requestDecode_shape hlen hcount)
  · exact exec_twoFields_range (op := .frameRead) (by decide) (fun _ => rfl) rfl
  · exact exec_wrReqLast_reservedBits (op := .frameRead) (by decide) hw hop hr

/-- `frame.raw4` on six byte operands frames them verbatim (R126). -/
theorem exec_frameRaw4_bytes {s : State} {ws : List Word32} (hP : s.params.wf) (h6 : ws.length = 6)
    (hb : ∀ w ∈ ws, w.toNat ≤ 0xFF) :
    ∃ t, exec (.frameRaw4 ws) s = .next t ∧
      Responds s t 0x00081200 (byteWords (sealedBytes (ws.map fun w => byteVal w.toNat))) :=
  exec_frame_bytes (op := .frameRaw4) (by rw [h6]; decide) (by decide) (fun _ => rfl) h6 (le_maxb_of_wf hP h6.le) hb

/-- The operands of `frame.raw4` that spell out those of `frame.write`: each parameter as two bytes, the high one first. -/
def highLowOperands (a f p q : Word32) : List Word32 :=
  [a, f, BitVec.ofNat 32 (p.toNat / 256), BitVec.ofNat 32 (p.toNat % 256), BitVec.ofNat 32 (q.toNat / 256),
    BitVec.ofNat 32 (q.toNat % 256)]

/-- The number of a byte, as an operand word. -/
theorem toNat_ofNat_of_le_byte {n : Nat} (hn : n ≤ 0xFF) : (BitVec.ofNat 32 n).toNat = n :=
  Nat.mod_eq_of_lt (by omega)

/-- These operands are bytes, and `frame.write`'s body. -/
theorem highLowOperands_bytes {a f p q : Word32} (ha : a.toNat ≤ 0xFF) (hf : f.toNat ≤ 0xFF) (hp : p.toNat ≤ 0xFFFF)
    (hq : q.toNat ≤ 0xFFFF) :
    (∀ w ∈ highLowOperands a f p q, w.toNat ≤ 0xFF) ∧
      (highLowOperands a f p q).map (fun w => byteVal w.toNat) = twoFieldBytes a f p q := by
  have hpHigh := toNat_ofNat_of_le_byte (n := p.toNat / 256) (by omega)
  have hpLow := toNat_ofNat_of_le_byte (n := p.toNat % 256) (by omega)
  have hqHigh := toNat_ofNat_of_le_byte (n := q.toNat / 256) (by omega)
  have hqLow := toNat_ofNat_of_le_byte (n := q.toNat % 256) (by omega)
  simp only [highLowOperands, List.forall_mem_cons, List.map_cons, List.map_nil, hpHigh, hpLow, hqHigh, hqLow]
  exact ⟨⟨ha, hf, by omega, by omega, by omega, by omega, by simp⟩, trivial⟩

/-- Settles O23: the frame of six bytes, the error of each failing check, and the bytes of `frame.write`'s two parameters. -/
theorem frameRaw4BuildsTheFrame : Obligations.FrameRaw4BuildsTheFrame := by
  refine ⟨fun s a f b0 b1 b2 b3 hP => exec_frameRaw4_bytes hP rfl, fun s ws hlen => ?_, fun s ws hlen hcount => ?_,
    fun s ws hP h6 => ?_, fun s v h ws hw hop hr => ?_, fun s a f p0 p1 hP ha hf hp0 hp1 => ?_⟩
  · exact exec_ofOp_error (op := .frameRaw4) (by decide) (requestDecode_tooLong hlen)
  · exact exec_ofOp_error (op := .frameRaw4) (by decide) (requestDecode_shape hlen hcount)
  · exact exec_bytes_range (op := .frameRaw4) (by decide) (fun _ => rfl) h6 (le_maxb_of_wf hP h6.le)
  · exact exec_wrReqLast_reservedBits (op := .frameRaw4) (by decide) hw hop hr
  · obtain ⟨hb, hbody⟩ := highLowOperands_bytes ha hf hp0 hp1
    obtain ⟨t, ht, hrt⟩ := exec_frameRaw4_bytes hP rfl hb
    obtain ⟨u, hu, hru⟩ :=
      exec_frame_twoFields (op := .frameWrite) rfl (by decide) (fun _ => rfl) rfl hP ha hf hp0 hp1
    rw [hbody] at hrt
    exact ⟨t, u, ht, hu, hrt.rspData_eq.trans hru.rspData_eq.symm⟩

/-- Settles O24: the operands' bytes in order, the error of each failing check, and the same bytes from `frame.raw4`. -/
theorem frameRawBuildsTheFrame : Obligations.FrameRawBuildsTheFrame := by
  have hframe {s : State} {ws : List Word32} :=
    exec_frame_bytes (op := .frameRaw) (s := s) (ws := ws) rfl (by decide) (fun _ => rfl)
  refine ⟨fun s ws _ => hframe, fun s ws hlen => ?_, fun s ws hlen hcount => ?_, fun s ws => ?_,
    fun s v h ws hw hop hr => ?_, fun s ws hP h6 hb => ?_⟩
  · exact exec_ofOp_error (op := .frameRaw) (by decide) (requestDecode_tooLong hlen)
  · exact exec_ofOp_error (op := .frameRaw) (by decide) (requestDecode_shape hlen (Nat.not_le.2 hcount))
  · exact exec_bytes_range (op := .frameRaw) (by decide) (fun _ => rfl)
  · exact exec_wrReqLast_reservedBits (op := .frameRaw) (by decide) hw hop hr
  · obtain ⟨t, ht, hrt⟩ := hframe (h6.ge.trans' (by decide)) (le_maxb_of_wf hP h6.le) hb
    obtain ⟨u, hu, hru⟩ := exec_frameRaw4_bytes hP h6 hb
    exact ⟨t, u, ht, hu, hrt.rspData_eq.trans hru.rspData_eq.symm⟩

/-- Settles O25: two parameters are 16-bit fields and any other number bytes, each with the errors of its widths. -/
theorem frameAutoDispatchesOnTheCount : Obligations.FrameAutoDispatchesOnTheCount := by
  refine ⟨fun s a f v0 v1 => ?_, fun s ws _ hcount h4 => ?_, fun s ws hlen => ?_, fun s ws hlen hcount => ?_,
    fun s a f v0 v1 => ?_, fun s ws hcount h4 => ?_, fun s v h ws hw hop hr => ?_⟩
  · exact exec_frame_twoFields (op := .frameAuto) (by decide) (by decide) operandWidth_frameAuto_four (by decide : 2 ≤ 4)
  · exact exec_frame_bytes (op := .frameAuto) rfl (by decide) (operandWidth_frameAuto_of_ne h4) hcount
  · exact exec_ofOp_error (op := .frameAuto) (by decide) (requestDecode_tooLong hlen)
  · exact exec_ofOp_error (op := .frameAuto) (by decide) (requestDecode_shape hlen (Nat.not_le.2 hcount))
  · exact exec_twoFields_range (op := .frameAuto) (by decide) operandWidth_frameAuto_four (by decide : 2 ≤ 4)
  · exact exec_bytes_range (op := .frameAuto) (by decide) (operandWidth_frameAuto_of_ne h4) hcount
  · exact exec_wrReqLast_reservedBits (op := .frameAuto) (by decide) hw hop hr

end Sys2Proof.Machine
end

/-! ### What every frame operation keeps -/
section
namespace Sys2Proof.Machine

/-- A request that is not well formed answers LEN 0 and no words (42_frame.md R128, 60_exceptions.md R155). -/
theorem runRequest_noFrame_of_not_wf {op : Op} {ws : List Word32} {s : State}
    (hwf : (Instr.ofOp op ws).wf s.params.maxb = false) :
    (lenField (runRequest op.header ws s).rspStatus).toNat = 0 ∧ (runRequest op.header ws s).rspData = [] := by
  have hcode : ecodeField (runRequest op.header ws s).rspStatus ≠ 0 := fun he =>
    Bool.false_ne_true (hwf.symm.trans
      ((wf_ofOp_iff _ op ws).2 ((ecodeField_runRequest_header_eq_zero_iff op ws s).1 he)))
  obtain ⟨op', args, -, hr⟩ | ⟨e, -, hr⟩ := runRequest_cases op.header ws s <;> rw [hr] at hcode ⊢
  · rw [complete_rspStatus, ecodeField_packStatus] at hcode
    exact absurd rfl hcode
  · rw [raiseError_rspStatus, lenField_packStatus]
    exact ⟨rfl, rfl⟩

/-- Settles O27: a well-formed request leaves a frame response, as long as its operation and its count say; any other an
error response. -/
theorem everyFrameOperationIsTotalAndSized : Obligations.EveryFrameOperationIsTotalAndSized := by
  intro op ws s hop hP
  refine ⟨_, exec_ofOp op ws s, fun hwf => ?_, runRequest_noFrame_of_not_wf⟩
  obtain ⟨hlen, hcount, hfit⟩ := (wf_ofOp_iff _ op ws).1 hwf
  obtain ⟨widths, -, hd⟩ := requestDecode_args hlen hcount hfit
  obtain ⟨hargs, hmaxb, hcount'⟩ := requestDecode_ok_length hd
  rw [runRequest_ok hd, opField_header]
  obtain ⟨-, fr, -, hseal, h4, hmax, -, -, hdata⟩ := frameResponse_complete hop hP hmaxb hcount'
  obtain ⟨body, hbody, hbodyLen⟩ := operation_eq_frameWords_sealFrame hop hcount'
  rw [complete_rspData] at hdata
  have hfrLen : fr.length = body.length + 2 := by
    rw [← byteWords_length, ← hdata, hbody, frameWords_length, sealFrame_length]
  refine ⟨fr, hdata, ?_, ecodeField_packStatus _ _ _, h4, hmax, ?_, hseal, computeCrc_of_wellSealed hseal⟩
  · obtain ⟨-, -, h254⟩ := hP
    rw [complete_params, Params.frameMax] at hmax
    rw [complete_rspStatus, lenField_packStatus, hdata, byteWords_length]
    exact Nat.mod_eq_of_lt (by omega)
  · rw [hfrLen, hbodyLen, hargs]
    split_ifs <;> rfl

/-- The bytes of a frame's parameters, which depend on the operation and the parameters alone. -/
def parameterBytes (op : Op) (rest : List Word32) : List Byte :=
  (rest.mapIdx fun k w => operandBytes (operandWidth op (rest.length + 2) (k + 2)) w).flatten

/-- The address and the function code are bytes in every operation (30_encoding.md R73). -/
theorem operandWidth_of_lt_two (op : Op) (n : Nat) {k : Nat} (hk : k < 2) : operandWidth op n k = 8 := by
  cases op <;> simp [operandWidth, hk, Nat.not_le.2 hk]

/-- A frame begins with the address and the function code (42_frame.md R123). -/
theorem frameBody_cons_cons (op : Op) (a f : Word32) (rest : List Word32) :
    frameBody op (a :: f :: rest) = byteVal a.toNat :: byteVal f.toNat :: parameterBytes op rest := by
  simp [frameBody, parameterBytes, operandBytes, operandWidth_of_lt_two, List.mapIdx_cons]

/-- A byte operand is the response word of its byte. -/
theorem byteWord_byteVal {w : Word32} (hw : w.toNat ≤ 0xFF) : BitVec.ofNat 32 (byteVal w.toNat).toNat = w := by
  apply BitVec.eq_of_toNat_eq
  rw [BitVec.toNat_ofNat, BitVec.toNat_ofNat]
  omega

/-- The response words of a sealed body that begins with two byte operands begin with those operands. -/
theorem exists_byteWords_frameBody (op : Op) {a f : Word32} (rest : List Word32) (ha : a.toNat ≤ 0xFF)
    (hf : f.toNat ≤ 0xFF) :
    ∃ data, byteWords (sealedBytes (frameBody op (a :: f :: rest))) = a :: f :: data := by
  rw [frameBody_cons_cons]
  exact ⟨_, congrArg₂ (fun x y => x :: y :: _) (byteWord_byteVal ha) (byteWord_byteVal hf)⟩

/-- Which operands fit, said of the address, the function code and the parameters apart. -/
theorem operandsFit_cons_cons_iff (op : Op) (a f : Word32) (rest : List Word32) :
    (¬ ∃ k, operandTooWide op (a :: f :: rest) k) ↔ a.toNat ≤ 0xFF ∧ f.toNat ≤ 0xFF ∧
      ∀ k w, rest[k]? = some w → w.toNat < 2 ^ operandWidth op (rest.length + 2) (k + 2) := by
  constructor
  · intro h
    have hfit {k : Nat} {w : Word32} (hk : (a :: f :: rest)[k]? = some w) :
        w.toNat < 2 ^ operandWidth op (rest.length + 2) k :=
      Nat.lt_of_not_le fun hw => h ⟨k, w, hk, hw⟩
    have ha := hfit (k := 0) rfl
    have hf := hfit (k := 1) rfl
    rw [operandWidth_of_lt_two op _ (by decide)] at ha hf
    exact ⟨Nat.le_of_lt_succ ha, Nat.le_of_lt_succ hf, fun k w hk => hfit (k := k + 2) hk⟩
  · rintro ⟨ha, hf, hrest⟩ ⟨k, w, hk, hw⟩
    match k with
    | 0 =>
      cases hk
      rw [operandWidth_of_lt_two op _ (by decide)] at hw
      omega
    | 1 =>
      cases hk
      rw [operandWidth_of_lt_two op _ (by decide)] at hw
      omega
    | k + 2 => exact absurd (hrest k w hk) (Nat.not_lt.2 hw)

/-- Settles O28: neither the checks nor the status look at the two bytes, which head the frame as they are given. -/
theorem addressAndFunctionCodeAreNotValidated : Obligations.AddressAndFunctionCodeAreNotValidated := by
  intro op s a f rest hop hP hwf
  obtain ⟨hlen, hcount, hfit⟩ := (wf_ofOp_iff _ op _).1 hwf
  obtain ⟨ha, hf, hrest⟩ := (operandsFit_cons_cons_iff op a f rest).1 hfit
  obtain ⟨data, hdata⟩ := exists_byteWords_frameBody op rest ha hf
  have hrun := runRequest_eq_complete_frame hop hlen hcount hfit
  refine ⟨_, data, exec_ofOp op _ s, ?_, ?_, fun a' f' ha' hf' => ?_⟩
  · rw [hrun, complete_rspStatus, ecodeField_packStatus]
  · rw [hrun, complete_rspData, hdata]
  · have hfit' := (operandsFit_cons_cons_iff op a' f' rest).2 ⟨ha', hf', hrest⟩
    have hrun' := runRequest_eq_complete_frame (ws := a' :: f' :: rest) hop hlen hcount hfit'
    obtain ⟨data', hdata'⟩ := exists_byteWords_frameBody op rest ha' hf'
    refine ⟨_, data', exec_ofOp op _ s, ?_, ?_⟩
    · rw [hrun, hrun', complete_rspStatus, complete_rspStatus]
      simp only [byteWords_length, sealedBytes_length, frameBody_cons_cons, List.length_cons]
    · rw [hrun', complete_rspData, hdata']

/-- Settles O29, by the responses the invariant admits: of those with a LEN that is not 0, only a frame is not `crc`'s. -/
theorem noFrameWithAWrongCrcIsEverShown : Obligations.NoFrameWithAWrongCrcIsEverShown := by
  rintro s ⟨-, ⟨hs, -⟩ | ⟨o, e, hs, -⟩ | ⟨c, hs, -⟩ | ⟨op, fr, -, hseal, -, -, -, -, hd⟩⟩ hop hlen
  · rw [hs] at hlen
    exact absurd rfl hlen
  · rw [hs, ← packStatus_error, lenField_packStatus] at hlen
    exact absurd rfl hlen
  · rw [hs] at hop
    exact absurd (by decide) hop
  · rw [hd, ← frameWords_eq_byteWords, map_byteOf_frameWords]
    exact ⟨hseal, computeCrc_of_wellSealed hseal⟩

end Sys2Proof.Machine
end

/-! ### The order of the checks and what an error records -/
section
namespace Sys2Proof.Machine

/-- OP is the low byte of the header's value (30_encoding.md R71). -/
theorem opField_eq_ofNat (h : Word32) : opField h = BitVec.ofNat 8 h.toNat := by
  apply BitVec.eq_of_toNat_eq
  rw [opField, BitVec.extractLsb'_toNat, BitVec.toNat_ofNat, Nat.shiftRight_zero]

/-- A REQ_LAST write whose request has a legal header, but words that do not decode, answers the error response
(60_exceptions.md R155). -/
theorem exec_wrReqLast_error {s : State} {v h : Word32} {ws : List Word32} {op : Op} {e : ErrCode}
    (hw : s.asm ++ [v] = h :: ws) (hn : h.toNat = op.code.toNat)
    (hd : requestDecode s.params.maxb op.header ws = .error e) :
    ∃ t, exec (.wrReqLast v) s = .next t ∧ Responds s t (errorStatus op.code e) [] := by
  rw [exec_wrReqLast_eq_ofOp op hw hn]
  exact exec_ofOp_error rfl hd

/-- Settles O14: an illegal header is E_OPCODE; of a legal header's request, each later check decides where those before it
pass, and ECODE is 0 where all of them pass. -/
theorem firstFailingCheckDecidesTheCode : Obligations.FirstFailingCheckDecidesTheCode := by
  intro s v h ws hw
  refine ⟨fun hn => ⟨_, exec_wrReqLast hw, ?_⟩, fun op hn => ⟨fun hlen => ?_, fun hlen hcount => ?_,
    fun hlen hcount hwide => ?_, fun hlen hcount hfit => ⟨_, exec_wrReqLast hw, ?_⟩⟩⟩
  · rw [runRequest_illegal (decodeHeader_eq_none hn), ← opField_eq_ofNat]
    exact responds_raiseError s _ _
  · exact exec_wrReqLast_error hw hn (requestDecode_tooLong hlen)
  · exact exec_wrReqLast_error hw hn (requestDecode_shape hlen hcount)
  · exact exec_wrReqLast_error hw hn (requestDecode_range hlen hcount hwide)
  · rw [eq_header_of_toNat hn]
    exact (ecodeField_runRequest_header_eq_zero_iff op ws s).2 ⟨hlen, hcount, hfit⟩

/-- The codes of the error classes are 1 to 4 (60_exceptions.md R151). -/
theorem errorCode_le_four (e : ErrCode) : errorCode e ≤ 4 := by cases e <;> decide

/-- A request that leaves an ECODE other than 0 raised an error: one that succeeds leaves ECODE 0 (10_state.md R30). -/
theorem exists_raiseError_of_ecode_ne_zero {h : Word32} {ws : List Word32} {s : State}
    (he : ecodeField (runRequest h ws s).rspStatus ≠ 0) : ∃ e, runRequest h ws s = s.raiseError (opField h) e := by
  obtain ⟨op, args, -, hr⟩ | ⟨e, -, hr⟩ := runRequest_cases h ws s
  · rw [hr, complete_rspStatus, ecodeField_packStatus] at he
    exact absurd rfl he
  · exact ⟨e, hr⟩

/-- Settles O16: the next state is that of the error response, whose status word holds LEN 0, the OP value and the code. -/
theorem errorsArePrecise : Obligations.ErrorsArePrecise := by
  intro s t v h ws hw hexec he
  rw [exec_wrReqLast hw] at hexec
  injection hexec with ht
  subst ht
  obtain ⟨e, hr⟩ := exists_raiseError_of_ecode_ne_zero he
  rw [hr, raiseError_rspStatus, lenField_packStatus, opechoField_packStatus, reservedField_packStatus, ecodeField_packStatus]
  exact ⟨rfl, rfl, rfl, errorCode_le_four e, rfl, rfl, rfl⟩

end Sys2Proof.Machine
end

/-! ### Reset -/
section
namespace Sys2Proof.Machine

/-- The parameters the model is given at reset are legal ones (00_scope.md R7, R8). -/
theorem Params.wf_default : Params.default.wf := by decide

/-- Settles O47: the parameters are legal and there is no response. -/
theorem resetMeetsTheInvariant : Obligations.ResetMeetsTheInvariant :=
  inv_resetBlock (s := State.reset) Params.wf_default

/-- With the reset status LEN is 0, so that no index is below it (70_reset_and_hazards.md R180, 10_state.md R34). -/
theorem lenField_reset_le (i : BitVec 8) : (lenField 0x00000000).toNat ≤ i.toNat := Nat.zero_le i.toNat

/-- With nothing assembled STAT is 0 (10_state.md R29). -/
theorem statWord_nil : statWord [] = 0x00000000 := by decide

/-- Settles O41: the reset state by its fields, and the reset event by the state its step leaves. -/
theorem resetClearsTheBlock : Obligations.ResetClearsTheBlock := by
  refine ⟨⟨rfl, rfl, rfl, statWord_nil, capsWord_toNat Params.wf_default⟩, fun s rest hp => ?_⟩
  exact ⟨_, step_reset hp, rfl, rfl, rfl, statWord_nil, rfl, lenField_reset_le⟩

/-- Settles O42, by the two orders that can be drawn: the access is performed after the reset, or before it. -/
theorem coincidingResetTakesOneOfTwoOrders : Obligations.CoincidingResetTakesOneOfTwoOrders := by
  intro s u a i rest hp hu hd
  have hacc : decodeAccess u.params a = .ok i := by
    rw [hu]
    exact decode_access_eq_ok.1 hd
  rw [step_accessDuringReset hp, ← hu]
  split_ifs
  · exact .inl (performAccess_of_decode (s := u.resetBlock) hacc)
  · obtain ⟨t, ht⟩ := exec_completes i u
    exact .inr ⟨t, ht, congrArg thenReset ((performAccess_of_decode hacc).trans ht)⟩

end Sys2Proof.Machine
end

/-! ### A request issued after an ABORT -/
section
namespace Sys2Proof.Machine

/-- The step that writes ABORT empties `asm`, whatever is written (40_register_access.md R92). -/
theorem step_memWrite_abort {s : State} {v : Word32} {rest : List HostEvent}
    (h : s.pending = .access (memWrite s.params 0x014 v) :: rest) :
    step s = .next { s with asm := [], pending := rest } :=
  step_memWrite rfl h

/-- Settles O44: ABORT's step leaves nothing assembled, and from there the writes run the request's words alone. -/
theorem abortThenIssueExecutesTheRequest : Obligations.AbortThenIssueExecutesTheRequest := by
  intro s i req v rest henc hp
  obtain ⟨op, ws, rfl, rfl⟩ := encode_request henc
  have habort : step s = .next
      { s with asm := [], pending := accessEvents (issue s.params (Instr.ofOp op ws)) ++ rest } := step_memWrite_abort hp
  have hissue : Host.Core.run core (op.header :: ws).length
      ({ s with asm := [], pending := accessEvents (issue s.params (Instr.ofOp op ws)) ++ rest } : State) =
      .next (runRequest op.header ws { s with asm := [], pending := rest }) := run_issue henc rfl rfl
  exact (run_succ _ habort).trans (hissue.trans (exec_ofOp op ws _).symm)

end Sys2Proof.Machine
end
